-- ==== Sys2Proof/Word.lean ====
section
/-! DEFINITION. The 128-bit value of the INT128 CORE and the readings of a bit pattern
(00_scope.md rules R9 to R12). -/

namespace Sys2Proof

/-- A 128-bit value (R8, `N`): operands, results and the result registers. -/
abbrev Word := BitVec 128

/-- The unsigned value `u(v)`, and `u_64` at width 64 (R11). -/
def uVal {n : Nat} (v : BitVec n) : Int := v.toNat

/-- The two's-complement value `s(v)`, and `s_64` at width 64 (R11). -/
def sVal {n : Nat} (v : BitVec n) : Int := v.toInt

/-- `w(n)`: the 128-bit vector with `u(w(n)) = n mod 2^128`, for negative `n` too (R11). -/
def w128 (n : Int) : Word := BitVec.ofInt 128 n

/-- `w_64(n)` (R11). -/
def w64 (n : Int) : BitVec 64 := BitVec.ofInt 64 n

/-- The largest unsigned value (R12). -/
def UMAX : Int := 2 ^ 128 - 1

/-- The largest signed value (R12). -/
def SMAX : Int := 2 ^ 127 - 1

/-- The smallest signed value (R12). -/
def SMIN : Int := -2 ^ 127

/-- The all-ones pattern `w(-1)` (R12). -/
def ONES : Word := 0xFFFFFFFFFFFFFFFFFFFFFFFFFFFFFFFF#128

end Sys2Proof
end

