-- ==== Sys2Proof/Syntax.lean ====
section
/-! DEFINITION. The commands of the INT128 CORE: one constructor per row of spec/opcode_table.json
(30_encoding.md rule R82). Every command has one shape (R80): two operand fields, each with its
source-select bit (R81). The unary commands carry their B field too: it is presented and not read (R87). -/

namespace Sys2Proof

/-- An operand field of a command: the select bit (ASEL for A, BSEL for B) and the 128 bits presented
on `in_a` or `in_b` (R80, R81). With the bit set the operand is RES0 for A and RES1 for B (R86). -/
structure Source where
  sel : Bool
  imm : Word
  deriving DecidableEq, Repr

/-- A field that presents a literal, with its select bit clear (R92). -/
def Source.lit (v : Word) : Source := ⟨false, v⟩

/-- A field that selects the result register (RES0 as A, RES1 as B), as the assembler emits it: the
presented bits are 0 (R92). -/
def Source.res : Source := ⟨true, 0⟩

/-- A command of R82, with its A and B fields. -/
inductive Instr where
  -- adder and comparator
  | pass (a b : Source)
  | add (a b : Source)
  | sub (a b : Source)
  | neg (a b : Source)
  | cmpu (a b : Source)
  | cmps (a b : Source)
  -- multiplier
  | mul (a b : Source)
  | mulw (a b : Source)
  -- divider
  | divu (a b : Source)
  | divs (a b : Source)
  -- shifter and rotator
  | shl (a b : Source)
  | shru (a b : Source)
  | shrs (a b : Source)
  | rol (a b : Source)
  | ror (a b : Source)
  -- counter and popcount unit
  | popcnt (a b : Source)
  | clz (a b : Source)
  | ctz (a b : Source)
  | clo (a b : Source)
  | cto (a b : Source)
  | bitwidth (a b : Source)
  | ffs (a b : Source)
  | fls (a b : Source)
  -- overflow detector: checked commands
  | caddu (a b : Source)
  | cadds (a b : Source)
  | csubu (a b : Source)
  | csubs (a b : Source)
  | cmulu (a b : Source)
  | cmuls (a b : Source)
  | cdivu (a b : Source)
  | cdivs (a b : Source)
  -- overflow detector: saturating commands
  | sataddu (a b : Source)
  | satadds (a b : Source)
  | satsubu (a b : Source)
  | satsubs (a b : Source)
  deriving DecidableEq, Repr

/-- The A field of a command. -/
def Instr.srcA : Instr → Source
  | .pass a _ | .add a _ | .sub a _ | .neg a _ | .cmpu a _ | .cmps a _ => a
  | .mul a _ | .mulw a _ | .divu a _ | .divs a _ => a
  | .shl a _ | .shru a _ | .shrs a _ | .rol a _ | .ror a _ => a
  | .popcnt a _ | .clz a _ | .ctz a _ | .clo a _ | .cto a _ => a
  | .bitwidth a _ | .ffs a _ | .fls a _ => a
  | .caddu a _ | .cadds a _ | .csubu a _ | .csubs a _ => a
  | .cmulu a _ | .cmuls a _ | .cdivu a _ | .cdivs a _ => a
  | .sataddu a _ | .satadds a _ | .satsubu a _ | .satsubs a _ => a

/-- The B field of a command. -/
def Instr.srcB : Instr → Source
  | .pass _ b | .add _ b | .sub _ b | .neg _ b | .cmpu _ b | .cmps _ b => b
  | .mul _ b | .mulw _ b | .divu _ b | .divs _ b => b
  | .shl _ b | .shru _ b | .shrs _ b | .rol _ b | .ror _ b => b
  | .popcnt _ b | .clz _ b | .ctz _ b | .clo _ b | .cto _ b => b
  | .bitwidth _ b | .ffs _ b | .fls _ b => b
  | .caddu _ b | .cadds _ b | .csubu _ b | .csubs _ b => b
  | .cmulu _ b | .cmuls _ b | .cdivu _ b | .cdivs _ b => b
  | .sataddu _ b | .satadds _ b | .satsubu _ b | .satsubs _ b => b

/-- The unary commands: they read A only (R87, R19). -/
def Instr.unary : Instr → Bool
  | .neg _ _ | .popcnt _ _ | .clz _ _ | .ctz _ _ | .clo _ _ | .cto _ _ => true
  | .bitwidth _ _ | .ffs _ _ | .fls _ _ => true
  | .pass _ _ | .add _ _ | .sub _ _ | .cmpu _ _ | .cmps _ _ => false
  | .mul _ _ | .mulw _ _ | .divu _ _ | .divs _ _ => false
  | .shl _ _ | .shru _ _ | .shrs _ _ | .rol _ _ | .ror _ _ => false
  | .caddu _ _ | .cadds _ _ | .csubu _ _ | .csubs _ _ => false
  | .cmulu _ _ | .cmuls _ _ | .cdivu _ _ | .cdivs _ _ => false
  | .sataddu _ _ | .satadds _ _ | .satsubu _ _ | .satsubs _ _ => false

/-- The commands that report an error in STATUS: the checked commands that 45_checked.md rule R190 names.
Every other command writes SUCCESS (10_state.md rule R34). -/
def Instr.checked : Instr → Bool
  | .caddu _ _ | .cadds _ _ | .csubu _ _ | .csubs _ _ => true
  | .cmulu _ _ | .cmuls _ _ | .cdivu _ _ | .cdivs _ _ => true
  | .pass _ _ | .add _ _ | .sub _ _ | .neg _ _ | .cmpu _ _ | .cmps _ _ => false
  | .mul _ _ | .mulw _ _ | .divu _ _ | .divs _ _ => false
  | .shl _ _ | .shru _ _ | .shrs _ _ | .rol _ _ | .ror _ _ => false
  | .popcnt _ _ | .clz _ _ | .ctz _ _ | .clo _ _ | .cto _ _ => false
  | .bitwidth _ _ | .ffs _ _ | .fls _ _ => false
  | .sataddu _ _ | .satadds _ _ | .satsubu _ _ | .satsubs _ _ => false

/-- The commands that write RES1 as well as RES0 (R82 column "RES1"; 10_state.md rule R32). -/
def Instr.writesRes1 : Instr → Bool
  | .pass _ _ | .divu _ _ | .divs _ _ | .cdivu _ _ | .cdivs _ _ => true
  | .add _ _ | .sub _ _ | .neg _ _ | .cmpu _ _ | .cmps _ _ => false
  | .mul _ _ | .mulw _ _ => false
  | .shl _ _ | .shru _ _ | .shrs _ _ | .rol _ _ | .ror _ _ => false
  | .popcnt _ _ | .clz _ _ | .ctz _ _ | .clo _ _ | .cto _ _ => false
  | .bitwidth _ _ | .ffs _ _ | .fls _ _ => false
  | .caddu _ _ | .cadds _ _ | .csubu _ _ | .csubs _ _ => false
  | .cmulu _ _ | .cmuls _ _ => false
  | .sataddu _ _ | .satadds _ _ | .satsubu _ _ | .satsubs _ _ => false

end Sys2Proof
end

