-- ==== Sys2Proof/WellFormed.lean ====
section
/-! DEFINITION. Well-formed commands: the fields as the assembler of 30_encoding.md rule R92 emits them.

The hardware runs every command, well-formed or not (R91; assumption 15): a field that is not read has no effect
(R86, R87). The check picks the one spelling of each command that the assembler gives. -/

namespace Sys2Proof

/-- A field that selects a result register presents 0 (R92: `R0` emits `in_a = 0`, `R1` emits
`in_b = 0`). -/
def Source.canonical (x : Source) : Bool := !x.sel || x.imm == 0

/-- A unary command emits BSEL = 0 and `in_b = 0` (R92). -/
def Instr.unaryFieldClear (i : Instr) : Bool := !i.unary || i.srcB == ⟨false, 0⟩

/-- The command is spelled as the assembler emits it (R92). -/
def Instr.wellFormed (i : Instr) : Bool :=
  i.srcA.canonical && i.srcB.canonical && i.unaryFieldClear

end Sys2Proof
end

