-- ==== Sys2Proof/Decode.lean ====
section
/-! DEFINITION. The command format and the FUNC map (30_encoding.md rules R80 to R84, R90, R91): the
decoder, total on every opcode byte and every operand field, and after it the encoder. -/

namespace Sys2Proof

/-- A command as it stands on the command port at its acceptance: 264 bits on three ports (R80). -/
structure Command where
  op : BitVec 8
  inA : Word
  inB : Word
  deriving DecidableEq, Repr

/-- FUNC, `op[5:0]` (R81). -/
def opFunc (op : BitVec 8) : BitVec 6 := op.extractLsb' 0 6

/-- ASEL, `op[6:6]` (R81). -/
def opAsel (op : BitVec 8) : Bool := op.getLsbD 6

/-- BSEL, `op[7:7]` (R81). -/
def opBsel (op : BitVec 8) : Bool := op.getLsbD 7

/-- The A field of a command: ASEL and `in_a`. -/
def Command.srcA (c : Command) : Source := ⟨opAsel c.op, c.inA⟩

/-- The B field of a command: BSEL and `in_b`. -/
def Command.srcB (c : Command) : Source := ⟨opBsel c.op, c.inB⟩

/-- Why an opcode byte names no command: its FUNC value is reserved (R90). -/
inductive DecodeError where
  | reservedFunc (func : BitVec 6)
  deriving DecidableEq, Repr

/-- The FUNC map of R82: the command that FUNC value `f` selects, with the operand fields `a` and `b`.
Every value outside the map is reserved (R84, R90). -/
def decodeFunc (f : BitVec 6) (a b : Source) : Except DecodeError Instr :=
  match f with
  | 0x00#6 => .ok (.pass a b)
  | 0x01#6 => .ok (.add a b)
  | 0x02#6 => .ok (.sub a b)
  | 0x03#6 => .ok (.neg a b)
  | 0x04#6 => .ok (.cmpu a b)
  | 0x05#6 => .ok (.cmps a b)
  | 0x08#6 => .ok (.mul a b)
  | 0x09#6 => .ok (.mulw a b)
  | 0x0C#6 => .ok (.divu a b)
  | 0x0D#6 => .ok (.divs a b)
  | 0x10#6 => .ok (.shl a b)
  | 0x11#6 => .ok (.shru a b)
  | 0x12#6 => .ok (.shrs a b)
  | 0x13#6 => .ok (.rol a b)
  | 0x14#6 => .ok (.ror a b)
  | 0x18#6 => .ok (.popcnt a b)
  | 0x19#6 => .ok (.clz a b)
  | 0x1A#6 => .ok (.ctz a b)
  | 0x1B#6 => .ok (.clo a b)
  | 0x1C#6 => .ok (.cto a b)
  | 0x1D#6 => .ok (.bitwidth a b)
  | 0x1E#6 => .ok (.ffs a b)
  | 0x1F#6 => .ok (.fls a b)
  | 0x20#6 => .ok (.caddu a b)
  | 0x21#6 => .ok (.cadds a b)
  | 0x22#6 => .ok (.csubu a b)
  | 0x23#6 => .ok (.csubs a b)
  | 0x24#6 => .ok (.cmulu a b)
  | 0x25#6 => .ok (.cmuls a b)
  | 0x26#6 => .ok (.cdivu a b)
  | 0x27#6 => .ok (.cdivs a b)
  | 0x28#6 => .ok (.sataddu a b)
  | 0x29#6 => .ok (.satadds a b)
  | 0x2A#6 => .ok (.satsubu a b)
  | 0x2B#6 => .ok (.satsubs a b)
  | _ => .error (.reservedFunc f)

/-- The defined FUNC values (R84). -/
def definedFuncs : List (BitVec 6) :=
  [0x00, 0x01, 0x02, 0x03, 0x04, 0x05, 0x08, 0x09, 0x0C, 0x0D, 0x10, 0x11, 0x12, 0x13, 0x14]
  ++ [0x18, 0x19, 0x1A, 0x1B, 0x1C, 0x1D, 0x1E, 0x1F]
  ++ [0x20, 0x21, 0x22, 0x23, 0x24, 0x25, 0x26, 0x27, 0x28, 0x29, 0x2A, 0x2B]

/-- The reserved FUNC values (R90). -/
def reservedFuncs : List (BitVec 6) :=
  [0x06, 0x07, 0x0A, 0x0B, 0x0E, 0x0F, 0x15, 0x16, 0x17]
  ++ [0x2C, 0x2D, 0x2E, 0x2F, 0x30, 0x31, 0x32, 0x33, 0x34, 0x35, 0x36, 0x37]
  ++ [0x38, 0x39, 0x3A, 0x3B, 0x3C, 0x3D, 0x3E, 0x3F]

/-- The decoder: FUNC selects the command, the select bits and the ports give its fields (R81, R82). -/
def decode (c : Command) : Except DecodeError Instr :=
  decodeFunc (opFunc c.op) c.srcA c.srcB

/-- The FUNC value of a command (R82). -/
def Instr.func : Instr → BitVec 6
  | .pass _ _ => 0x00#6
  | .add _ _ => 0x01#6
  | .sub _ _ => 0x02#6
  | .neg _ _ => 0x03#6
  | .cmpu _ _ => 0x04#6
  | .cmps _ _ => 0x05#6
  | .mul _ _ => 0x08#6
  | .mulw _ _ => 0x09#6
  | .divu _ _ => 0x0C#6
  | .divs _ _ => 0x0D#6
  | .shl _ _ => 0x10#6
  | .shru _ _ => 0x11#6
  | .shrs _ _ => 0x12#6
  | .rol _ _ => 0x13#6
  | .ror _ _ => 0x14#6
  | .popcnt _ _ => 0x18#6
  | .clz _ _ => 0x19#6
  | .ctz _ _ => 0x1A#6
  | .clo _ _ => 0x1B#6
  | .cto _ _ => 0x1C#6
  | .bitwidth _ _ => 0x1D#6
  | .ffs _ _ => 0x1E#6
  | .fls _ _ => 0x1F#6
  | .caddu _ _ => 0x20#6
  | .cadds _ _ => 0x21#6
  | .csubu _ _ => 0x22#6
  | .csubs _ _ => 0x23#6
  | .cmulu _ _ => 0x24#6
  | .cmuls _ _ => 0x25#6
  | .cdivu _ _ => 0x26#6
  | .cdivs _ _ => 0x27#6
  | .sataddu _ _ => 0x28#6
  | .satadds _ _ => 0x29#6
  | .satsubu _ _ => 0x2A#6
  | .satsubs _ _ => 0x2B#6

/-- The opcode byte `BSEL·0x80 + ASEL·0x40 + FUNC` (R92): the pattern `BAFFFFFF` of R81. -/
def opByte (bsel asel : Bool) (f : BitVec 6) : BitVec 8 :=
  BitVec.ofBool bsel ++ BitVec.ofBool asel ++ f

/-- The encoder: the three port values of a command (R80, R81, R82). -/
def encode (i : Instr) : Command :=
  { op := opByte i.srcB.sel i.srcA.sel i.func, inA := i.srcA.imm, inB := i.srcB.imm }

/-- The command whose lowest `nbits` bits are those of `w` and whose other bits are 0: bit 0 is the least
significant bit of the opcode byte, `in_op` stands lowest, then `in_a`, then `in_b` (the fields of R80 in
their order there; assumption 5). -/
def tableCommand (nbits w : Nat) : Command :=
  { op := BitVec.ofNat 8 (w % 2 ^ min nbits 8)
    inA := BitVec.ofNat 128 (w / 2 ^ 8 % 2 ^ (min nbits 136 - 8))
    inB := BitVec.ofNat 128 (w / 2 ^ 136 % 2 ^ (min nbits 264 - 136)) }

/-- The instruction the decoder reads from a row's word, numbered as spec/opcode_table.json numbers it. -/
def decodeTableWord (nbits w : Nat) : Option Instr :=
  match decode (tableCommand nbits w) with
  | .ok i => some i
  | .error _ => none

end Sys2Proof
end

