-- ==== Sys2Proof/Config.lean ====
section
/-! DEFINITION. What an implementation of the INT128 CORE fixes (00_scope.md rule R8).

Every parameter of R8 but two has one value, and stands where it is used: the value width 128 and the
word width 64 (Word.lean, Operands.lean), the opcode byte (Decode.lean), the 3-bit STATUS (Flags.lean),
two result registers (State.lean). The two OPEN parameters are the latency function `LAT` and its bound
`MAX_LAT`; their types stand here. The machine holds one value of them as plain data in `State.timing`
(assumption 2), every step leaves it alone, and no result depends on it (R7, R262). -/

namespace Sys2Proof

/-- One clause of an implementation's latency function: a FUNC value, the operand pair it speaks of
(`none`: every operand pair), and a number of cycles. Operands may matter, for the fast paths (R262); the pair is
the whole of both, with the bits the command does not read (assumption 2, DESIGN CHOICE). -/
structure LatencyRule where
  func : BitVec 6
  operands : Option (Word × Word)
  cycles : Nat
  deriving DecidableEq, Repr

/-- The OPEN timing parameters of an implementation: `MAX_LAT` and the clauses of `LAT` (R8, R262). The
first clause that speaks of a command gives its cycles; a command that no clause speaks of takes none. -/
structure Timing where
  maxLat : Nat
  rules : List LatencyRule
  deriving DecidableEq, Repr

end Sys2Proof
end

