-- ==== Sys2Proof/Machine/State.lean ====
section
/-! DEFINITION. The state of the INT128 CORE as plain data (10_state.md rules R31 to R46), the input ports
the host drives, the OPEN timing parameters, and the state after reset (R45). -/

namespace Sys2Proof.Machine

/-- The STATUS register's values (R33). The codes 4, 5 and 6 have no name and no command writes them; they
stand here because the register is 3 bits wide and is unspecified before the first reset (R257). -/
inductive Status where
  | success
  | overflow
  | underflow
  | invalidInput
  | unused4
  | unused5
  | unused6
  | illegalOp
  deriving DecidableEq, Repr

/-- The values of the input ports at one rising edge of `clk` (R43). -/
structure PortSample where
  rst : Bool
  inValid : Bool
  inOp : BitVec 8
  inA : Word
  inB : Word
  deriving DecidableEq, Repr

/-- The ports of a host that presents nothing and does not reset. -/
def PortSample.idle : PortSample := ⟨false, false, 0, 0, 0⟩

/-- The accepted command while BUSY = 1: its opcode byte and the resolved operands captured at
acceptance (R42, R46), and the number of rising edges left until its completion (R253). -/
structure Pending where
  op : BitVec 8
  a : Word
  b : Word
  left : Nat
  deriving DecidableEq, Repr

/-- The machine. `res0` to `pending` are the core's own state, all of it (R46). `host` is what the host
does: the values of the input ports at the coming rising edges, the next edge first; past its end the
host is idle (assumption 3). `timing` is the implementation's choice of the OPEN parameters (R262,
assumption 2). -/
structure State where
  /-- RES0, the primary result register (R31). -/
  res0 : Word
  /-- RES1, the secondary result register (R31). -/
  res1 : Word
  /-- STATUS, the code of the last completed command (R33). -/
  status : Status
  /-- VALID: the result registers hold the results of the latest accepted command (R35). -/
  valid : Bool
  /-- The command in progress; `none` exactly when BUSY = 0 (R42, R46). -/
  pending : Option Pending
  host : List PortSample
  timing : Timing
  deriving DecidableEq, Repr

/-- BUSY: a command is in progress (R36). R46 stores it as the presence of the pending record. -/
def State.busy (s : State) : Bool := s.pending.isSome

/-- The reasons the machine stops with a fault: there is none. The block has no traps, and no error stops
it (60_exceptions.md rules R220 and R227); every clock edge has a next state. The type is empty, so a
fault cannot be built; that is safe. -/
inductive Fault where
  deriving DecidableEq, Repr

/-- The reasons the machine refuses. -/
inductive Refusal where
  /-- Raised by an arm of `exec` whose instruction has no meaning yet. No arm raises it: every command of
  R82 has its meaning. Safe: nothing can be proved of an instruction that is refused. -/
  | notModelled (mnemonic : String)
  deriving DecidableEq, Repr

/-- The machine right after reset (R45). `host` and `timing` are no registers: nothing is presented, and
the timing parameters are the zero choice (assumptions 2 and 3, DESIGN CHOICE). -/
def State.reset : State :=
  { res0 := 0
    res1 := 0
    status := .success
    valid := false
    pending := none
    host := []
    timing := ⟨0, []⟩ }

end Sys2Proof.Machine
end

