-- ==== Sys2Proof/Machine/Operands.lean ====
section
/-! DEFINITION. Operands (30_encoding.md rules R86 and R87), the slices and extensions of a 128-bit value
(00_scope.md rules R9 and R14), the integer operators of the pseudocode (R13) and the bit-count helpers
(R17). -/

namespace Sys2Proof.Machine

/-- Operand A: RES0 if ASEL is set, and otherwise `in_a` (R86). -/
def State.operandA (s : State) (x : Source) : Word := if x.sel then s.res0 else x.imm

/-- Operand B: RES1 if BSEL is set, and otherwise `in_b` (R86). -/
def State.operandB (s : State) (x : Source) : Word := if x.sel then s.res1 else x.imm

/-- The low word `v[63:0]` (R9). -/
def lowWord (v : Word) : BitVec 64 := v.extractLsb' 0 64

/-- The high word `v[127:64]` (R9). -/
def highWord (v : Word) : BitVec 64 := v.extractLsb' 64 64

/-- `zext_128` of a natural count (R14): counts are at most 128, so they fit. -/
def zextCount (n : Nat) : Word := w128 n

/-- The shift amount `k = u(B)`, all 128 bits (R87). -/
def shiftAmount (b : Word) : Nat := b.toNat

/-- The rotate amount `n = u(B[6:0])` (R87). -/
def rotateAmount (b : Word) : Nat := (b.extractLsb' 0 7).toNat

/-- Division truncated toward zero, for a nonzero divisor (R13). -/
def tdiv (a b : Int) : Int := a.sign * b.sign * ((a.natAbs / b.natAbs : Nat) : Int)

/-- The remainder of the truncated division (R13). -/
def trem (a b : Int) : Int := a - b * tdiv a b

/-- `clamp(n, lo, hi)` (R13). -/
def clamp (n lo hi : Int) : Int := min (max n lo) hi

/-- `popcount(v)`: the number of `i` in [0,127] with `v[i:i] = 1` (R17). -/
def popcount (v : Word) : Nat := (List.range 128).countP fun i => v.getLsbD i

/-- `msb(v)` for `v != 0`: the largest `i` with `v[i:i] = 1` (R17). -/
def msb (v : Word) : Nat := ((List.range 128).reverse.find? fun i => v.getLsbD i).getD 0

/-- `lsb(v)` for `v != 0`: the smallest `i` with `v[i:i] = 1` (R17). -/
def lsb (v : Word) : Nat := ((List.range 128).find? fun i => v.getLsbD i).getD 0

end Sys2Proof.Machine
end

