-- ==== Sys2Proof/Machine/Flags.lean ====
section
/-! DEFINITION. STATUS, the only flag register of the block (10_state.md rules R33 and R38): its 3-bit
codes, and the range test that gives the checked commands their code (45_checked.md rule R190). -/

namespace Sys2Proof.Machine

/-- The 3-bit code of a STATUS value (R33), as `out_status` shows it (R44). -/
def Status.code : Status → BitVec 3
  | .success => 0
  | .overflow => 1
  | .underflow => 2
  | .invalidInput => 3
  | .unused4 => 4
  | .unused5 => 5
  | .unused6 => 6
  | .illegalOp => 7

/-- The codes that the table of R33 names: all but 4, 5 and 6. -/
def Status.named : Status → Bool
  | .success | .overflow | .underflow | .invalidInput | .illegalOp => true
  | .unused4 | .unused5 | .unused6 => false

/-- The checked-result policy: the value and the status for the exact result `x` and the range
`[lo, hi]` (R190). -/
def checkRange (lo hi x : Int) : Word × Status :=
  if x > hi then (w128 0, .overflow)
  else if x < lo then (w128 0, .underflow)
  else (w128 x, .success)

end Sys2Proof.Machine
end

