-- ==== Sys2Proof/Machine/Ops.lean ====
section
/-! DEFINITION. The named operations on the state: completion and its register writes (10_state.md rule
R32, 30_encoding.md rule R89), acceptance (70_reset_and_hazards.md rule R252), reset (R250), latency
(R262), the output ports (R44), and the 16-byte layout of a value (20_memory.md rules R61 and R62).

The block takes no exceptions (60_exceptions.md rule R227). What stands in for raising one is
`State.report`, the completion that writes a code to STATUS and leaves the result registers alone; there
is nothing to return from (R228). The block has no memory either (R60), so there is no memory operation. -/

namespace Sys2Proof.Machine

/-! ### Completion -/

/-- A completion: all the writes of a command at once, with `VALID <- 1` and `BUSY <- 0` (R89, R253). -/
def State.finish (r0 r1 : Word) (st : Status) (s : State) : State :=
  { s with res0 := r0, res1 := r1, status := st, valid := true, pending := none }

/-- The completion of a command that writes RES0 and keeps RES1 (R32). -/
def State.writeRes0 (r0 : Word) (st : Status) (s : State) : State := s.finish r0 s.res1 st

/-- The completion of PASS and of the divisions, which write RES0 and RES1 (R32). -/
def State.writeBoth (r0 r1 : Word) (st : Status) (s : State) : State := s.finish r0 r1 st

/-- The completion of a reserved FUNC: the code alone is written (R16 `report`, R90). -/
def State.report (st : Status) (s : State) : State := s.finish s.res0 s.res1 st

/-! ### Latency -/

/-- The clause speaks of FUNC `f` on the operands `a` and `b`. DESIGN CHOICE (assumption 2), safe: `a` and
`b` are the whole resolved operands, and a clause may tell apart operands that differ only in bits the
command does not read. R262 lets LAT depend on the operand values and does not say whether the unread bits
are among them, and R87 says that an unread bit has no effect on the command; the model takes R87 to speak
of the command's results. A latency that ignores the unread bits is one of those the clauses can give. -/
def matchesRule (r : LatencyRule) (f : BitVec 6) (a b : Word) : Bool :=
  r.func == f && (match r.operands with
    | none => true
    | some p => p.1 == a && p.2 == b)

/-- `LAT(f)` on the operands `a` and `b`: the first clause that speaks of them, never above MAX_LAT, and a
function of nothing else (R262). Whether it may depend on operand bits that the command does not read is
left free (assumption 2, DESIGN CHOICE; see `matchesRule`). -/
def latency (t : Timing) (f : BitVec 6) (a b : Word) : Nat :=
  match t.rules.find? fun r => matchesRule r f a b with
  | some r => min r.cycles t.maxLat
  | none => 0

/-! ### The command port -/

/-- The values of the input ports at the next rising edge. -/
def State.pins (s : State) : PortSample := s.host.headD PortSample.idle

/-- The edge has passed: the host's next values stand on the ports. -/
def State.advance (s : State) : State := { s with host := s.host.tail }

/-- The command on the command port (R43, R80). -/
def PortSample.command (p : PortSample) : Command := ⟨p.inOp, p.inA, p.inB⟩

/-- What acceptance records: the opcode byte, the operands resolved against the current registers, and
the latency of the command (R89 `accept`, R252). -/
def State.capture (s : State) (c : Command) : Pending :=
  let a := s.operandA c.srcA
  let b := s.operandB c.srcB
  ⟨c.op, a, b, latency s.timing (opFunc c.op) a b⟩

/-- The acceptance of a command of nonzero latency: BUSY <- 1 and VALID <- 0, and RES0, RES1 and STATUS
keep their values (R252). -/
def State.startPending (p : Pending) (s : State) : State :=
  { s with pending := some p, valid := false }

/-- An edge of a command in progress before its completion (R253). -/
def State.tick (p : Pending) (s : State) : State :=
  { s with pending := some { p with left := p.left - 1 } }

/-- Reset: every register takes its reset value and a pending command is dropped (R45, R250). -/
def State.resetRegisters (s : State) : State :=
  { s with res0 := 0, res1 := 0, status := .success, valid := false, pending := none }

/-! ### The output ports (R43, R44) -/

/-- `out_r`. -/
def State.outR (s : State) : Word := s.res0

/-- `out_x`. -/
def State.outX (s : State) : Word := s.res1

/-- `out_status`. -/
def State.outStatus (s : State) : BitVec 3 := s.status.code

/-- `out_valid`. -/
def State.outValid (s : State) : Bool := s.valid

/-- `in_ready = (BUSY = 0) and (rst = 0)`, with the `rst` the host drives in this cycle. -/
def State.inReady (s : State) : Bool := !s.busy && !s.pins.rst

/-- A command is accepted at the coming edge: `in_valid = 1` and `in_ready = 1`, which holds under
`rst = 0` only (R252). -/
def State.accepts (s : State) : Bool := s.pins.inValid && s.inReady

/-! ### The 16-byte layout -/

/-- Byte `k` of a value, `v[8k+7:8k]` (R61). -/
def byteOf (v : Word) (k : Nat) : BitVec 8 := v.extractLsb' (8 * k) 8

/-- The 16 bytes of a value, `byte[0]` first: the low word, then the high word, each little-endian (R61). -/
def toBytes (v : Word) : List (BitVec 8) := (List.range 16).map (byteOf v)

/-- The number that a list of bytes stands for, the first byte lowest. -/
def littleEndian : List (BitVec 8) → Nat
  | [] => 0
  | b :: rest => b.toNat + 256 * littleEndian rest

/-- The value that 16 bytes in the layout of R61 stand for. -/
def ofBytes (bytes : List (BitVec 8)) : Word := BitVec.ofNat 128 (littleEndian bytes)

/-- A little-endian read of `n` bytes of a layout, from byte `k` on (R62). -/
def readBytes (bytes : List (BitVec 8)) (k n : Nat) : Nat := littleEndian ((bytes.drop k).take n)

end Sys2Proof.Machine
end

