-- ==== Sys2Proof/Machine/AddCompare.lean ====
section
/-! DEFINITION. The adder and comparator (40_add_compare.md): PASS, ADD, SUB, NEG, CMPU, CMPS. All are
unchecked and write SUCCESS. -/

namespace Sys2Proof.Machine

/-- The dual-word sum: the low words, then the high words with the carry "detected via unsigned-overflow
on `low`"; the carry out of bit 127 is discarded (R101). -/
def addWords (a b : Word) : Word :=
  let lo := w64 (uVal (lowWord a) + uVal (lowWord b))
  let c : Int := if uVal lo < uVal (lowWord a) then 1 else 0
  let hi := w64 (uVal (highWord a) + uVal (highWord b) + c)
  hi ++ lo

/-- The dual-word difference, with the borrow out of the low word; the borrow out of bit 127 is discarded
(R102). -/
def subWords (a b : Word) : Word :=
  let lo := w64 (uVal (lowWord a) - uVal (lowWord b))
  let bw : Int := if uVal (lowWord a) < uVal (lowWord b) then 1 else 0
  let hi := w64 (uVal (highWord a) - uVal (highWord b) - bw)
  hi ++ lo

/-- Two's-complement negation, `w(u(~A) + 1)` (R103). -/
def negWord (a : Word) : Word := w128 (uVal (~~~a) + 1)

/-- The three-way answer -1, 0 or 1 of a comparison (R104, R105). -/
def threeWay (x y : Int) : Word := if x < y then ONES else if x = y then w128 0 else w128 1

/-- PASS: RES0 <- A and RES1 <- B (R100). -/
def execPass (a b : Source) (s : State) : Host.Outcome State Fault Refusal :=
  .next (s.writeBoth (s.operandA a) (s.operandB b) .success)

/-- ADD: RES0 <- A + B mod 2^128, carried from word to word (R101). -/
def execAdd (a b : Source) (s : State) : Host.Outcome State Fault Refusal :=
  .next (s.writeRes0 (addWords (s.operandA a) (s.operandB b)) .success)

/-- SUB: RES0 <- A - B mod 2^128, borrowed from word to word (R102). -/
def execSub (a b : Source) (s : State) : Host.Outcome State Fault Refusal :=
  .next (s.writeRes0 (subWords (s.operandA a) (s.operandB b)) .success)

/-- NEG: RES0 <- -A mod 2^128 (R103). B is not read. -/
def execNeg (a : Source) (s : State) : Host.Outcome State Fault Refusal :=
  .next (s.writeRes0 (negWord (s.operandA a)) .success)

/-- CMPU: the three-way comparison of u(A) and u(B) (R104). -/
def execCmpu (a b : Source) (s : State) : Host.Outcome State Fault Refusal :=
  .next (s.writeRes0 (threeWay (uVal (s.operandA a)) (uVal (s.operandB b))) .success)

/-- CMPS: the three-way comparison of s(A) and s(B) (R105). -/
def execCmps (a b : Source) (s : State) : Host.Outcome State Fault Refusal :=
  .next (s.writeRes0 (threeWay (sVal (s.operandA a)) (sVal (s.operandB b))) .success)

end Sys2Proof.Machine
end

