-- ==== Sys2Proof/Machine/BitCount.lean ====
section
/-! DEFINITION. The bit counter and popcount unit (44_bitcount.md): POPCNT, CLZ, CTZ, CLO, CTO, BITWIDTH,
FFS, FLS. All are unary and unchecked: they read A only and write SUCCESS. -/

namespace Sys2Proof.Machine

/-- Leading zeros; 128 for zero (R171). -/
def countLeadingZeros (v : Word) : Word := if v = 0 then w128 128 else w128 (127 - msb v)

/-- Trailing zeros; 128 for zero (R172). -/
def countTrailingZeros (v : Word) : Word := if v = 0 then w128 128 else w128 (lsb v)

/-- The bits needed to represent `u(v)` (R175). -/
def bitWidthOf (v : Word) : Word := if v = 0 then w128 0 else w128 (msb v + 1)

/-- The position of the lowest set bit, or -1 (R176). -/
def findFirstSet (v : Word) : Word := if v = 0 then ONES else w128 (lsb v)

/-- The position of the highest set bit, or -1 (R177). -/
def findLastSet (v : Word) : Word := if v = 0 then ONES else w128 (msb v)

/-- POPCNT: the number of set bits of A (R170). -/
def execPopcnt (a : Source) (s : State) : Host.Outcome State Fault Refusal :=
  .next (s.writeRes0 (zextCount (popcount (s.operandA a))) .success)

/-- CLZ: the leading zeros of A (R171). -/
def execClz (a : Source) (s : State) : Host.Outcome State Fault Refusal :=
  .next (s.writeRes0 (countLeadingZeros (s.operandA a)) .success)

/-- CTZ: the trailing zeros of A (R172). -/
def execCtz (a : Source) (s : State) : Host.Outcome State Fault Refusal :=
  .next (s.writeRes0 (countTrailingZeros (s.operandA a)) .success)

/-- CLO: the leading ones of A, the leading zeros of ~A (R173). -/
def execClo (a : Source) (s : State) : Host.Outcome State Fault Refusal :=
  .next (s.writeRes0 (countLeadingZeros (~~~(s.operandA a))) .success)

/-- CTO: the trailing ones of A, the trailing zeros of ~A (R174). -/
def execCto (a : Source) (s : State) : Host.Outcome State Fault Refusal :=
  .next (s.writeRes0 (countTrailingZeros (~~~(s.operandA a))) .success)

/-- BITWIDTH: the bits needed to represent u(A) (R175). -/
def execBitwidth (a : Source) (s : State) : Host.Outcome State Fault Refusal :=
  .next (s.writeRes0 (bitWidthOf (s.operandA a)) .success)

/-- FFS: the position of the lowest set bit of A, or -1 (R176). -/
def execFfs (a : Source) (s : State) : Host.Outcome State Fault Refusal :=
  .next (s.writeRes0 (findFirstSet (s.operandA a)) .success)

/-- FLS: the position of the highest set bit of A, or -1 (R177). -/
def execFls (a : Source) (s : State) : Host.Outcome State Fault Refusal :=
  .next (s.writeRes0 (findLastSet (s.operandA a)) .success)

end Sys2Proof.Machine
end

