-- ==== Sys2Proof/Machine/Checked.lean ====
section
/-! DEFINITION. The overflow detector (45_checked.md): the checked commands CADDU, CADDS, CSUBU, CSUBS,
CMULU, CMULS, CDIVU, CDIVS, which report an out-of-range result in STATUS, and the saturating commands
SATADDU, SATADDS, SATSUBU, SATSUBS, which clamp it and write SUCCESS. -/

namespace Sys2Proof.Machine

/-- The policy of R190 on the unsigned range: RES0 and STATUS for the exact result `x`. -/
def State.checkUnsigned (x : Int) (s : State) : State :=
  let r := checkRange 0 UMAX x
  s.writeRes0 r.1 r.2

/-- The policy of R190 on the signed range: RES0 and STATUS for the exact result `x`. -/
def State.checkSigned (x : Int) (s : State) : State :=
  let r := checkRange SMIN SMAX x
  s.writeRes0 r.1 r.2

/-- CADDU: checked u(A) + u(B) (R191). -/
def execCaddu (a b : Source) (s : State) : Host.Outcome State Fault Refusal :=
  .next (s.checkUnsigned (uVal (s.operandA a) + uVal (s.operandB b)))

/-- CADDS: checked s(A) + s(B) (R192). -/
def execCadds (a b : Source) (s : State) : Host.Outcome State Fault Refusal :=
  .next (s.checkSigned (sVal (s.operandA a) + sVal (s.operandB b)))

/-- CSUBU: checked u(A) - u(B) (R193). -/
def execCsubu (a b : Source) (s : State) : Host.Outcome State Fault Refusal :=
  .next (s.checkUnsigned (uVal (s.operandA a) - uVal (s.operandB b)))

/-- CSUBS: checked s(A) - s(B) (R194). -/
def execCsubs (a b : Source) (s : State) : Host.Outcome State Fault Refusal :=
  .next (s.checkSigned (sVal (s.operandA a) - sVal (s.operandB b)))

/-- CMULU: checked u(A) · u(B) (R195). -/
def execCmulu (a b : Source) (s : State) : Host.Outcome State Fault Refusal :=
  .next (s.checkUnsigned (uVal (s.operandA a) * uVal (s.operandB b)))

/-- CMULS: checked s(A) · s(B) (R196). -/
def execCmuls (a b : Source) (s : State) : Host.Outcome State Fault Refusal :=
  .next (s.checkSigned (sVal (s.operandA a) * sVal (s.operandB b)))

/-- The results of the checked unsigned division, with their status: INVALID_INPUT and zeros for a zero
divisor (R197). -/
def checkedDivUnsigned (x y : Word) : (Word × Word) × Status :=
  if uVal y = 0 then ((w128 0, w128 0), .invalidInput)
  else ((w128 (uVal x / uVal y), w128 (uVal x % uVal y)), .success)

/-- The results of the checked signed division, with their status: the zero check first, then OVERFLOW
for SMIN / -1 (R198). -/
def checkedDivSigned (x y : Word) : (Word × Word) × Status :=
  if uVal y = 0 then ((w128 0, w128 0), .invalidInput)
  else if sVal x = SMIN ∧ sVal y = -1 then ((w128 0, w128 0), .overflow)
  else ((w128 (tdiv (sVal x) (sVal y)), w128 (trem (sVal x) (sVal y))), .success)

/-- CDIVU: the checked quotient and remainder, unsigned (R197). -/
def execCdivu (a b : Source) (s : State) : Host.Outcome State Fault Refusal :=
  let r := checkedDivUnsigned (s.operandA a) (s.operandB b)
  .next (s.writeBoth r.1.1 r.1.2 r.2)

/-- CDIVS: the checked truncated quotient and its remainder (R198). -/
def execCdivs (a b : Source) (s : State) : Host.Outcome State Fault Refusal :=
  let r := checkedDivSigned (s.operandA a) (s.operandB b)
  .next (s.writeBoth r.1.1 r.1.2 r.2)

/-- SATADDU: u(A) + u(B), clamped at UMAX (R199). -/
def execSataddu (a b : Source) (s : State) : Host.Outcome State Fault Refusal :=
  .next (s.writeRes0 (w128 (min (uVal (s.operandA a) + uVal (s.operandB b)) UMAX)) .success)

/-- SATADDS: s(A) + s(B), clamped to the signed range (R200). -/
def execSatadds (a b : Source) (s : State) : Host.Outcome State Fault Refusal :=
  .next (s.writeRes0 (w128 (clamp (sVal (s.operandA a) + sVal (s.operandB b)) SMIN SMAX)) .success)

/-- SATSUBU: u(A) - u(B), clamped at 0 (R201). -/
def execSatsubu (a b : Source) (s : State) : Host.Outcome State Fault Refusal :=
  .next (s.writeRes0 (w128 (max (uVal (s.operandA a) - uVal (s.operandB b)) 0)) .success)

/-- SATSUBS: s(A) - s(B), clamped to the signed range (R202). -/
def execSatsubs (a b : Source) (s : State) : Host.Outcome State Fault Refusal :=
  .next (s.writeRes0 (w128 (clamp (sVal (s.operandA a) - sVal (s.operandB b)) SMIN SMAX)) .success)

end Sys2Proof.Machine
end

