-- ==== Sys2Proof/Machine/Divide.lean ====
section
/-! DEFINITION. The divider (43_divide.md): DIVU, DIVS. Both are unchecked: they write SUCCESS even for a
zero divisor, whose results are (0, 0) (R153; 90_conflicts.md C1). -/

namespace Sys2Proof.Machine

/-- The unsigned quotient and remainder (R150). -/
def divUnsigned (a b : Word) : Word × Word :=
  if uVal b = 0 then (w128 0, w128 0) else (w128 (uVal a / uVal b), w128 (uVal a % uVal b))

/-- The signed quotient and remainder, truncating toward zero: the unsigned division of the magnitudes,
with the sign reapplied afterward (R151). -/
def divSigned (a b : Word) : Word × Word :=
  if uVal b = 0 then (w128 0, w128 0)
  else
    let ma : Int := (sVal a).natAbs
    let mb : Int := (sVal b).natAbs
    let qm := ma / mb
    let rm := ma % mb
    let q := if decide (sVal a < 0) != decide (sVal b < 0) then -qm else qm
    let r := if sVal a < 0 then -rm else rm
    (w128 q, w128 r)

/-- DIVU: RES0 <- the quotient and RES1 <- the remainder, unsigned (R150). -/
def execDivu (a b : Source) (s : State) : Host.Outcome State Fault Refusal :=
  let r := divUnsigned (s.operandA a) (s.operandB b)
  .next (s.writeBoth r.1 r.2 .success)

/-- DIVS: RES0 <- the quotient and RES1 <- the remainder, signed (R151). -/
def execDivs (a b : Source) (s : State) : Host.Outcome State Fault Refusal :=
  let r := divSigned (s.operandA a) (s.operandB b)
  .next (s.writeBoth r.1 r.2 .success)

end Sys2Proof.Machine
end

