-- ==== Sys2Proof/Machine/Multiply.lean ====
section
/-! DEFINITION. The multiplier (41_multiply.md): MUL, MULW. Both are unchecked and write SUCCESS. -/

namespace Sys2Proof.Machine

/-- The wrapped product `w(u(A) · u(B))`; it has no signed variant (R120, R122). -/
def mulWord (a b : Word) : Word := w128 (uVal a * uVal b)

/-- The full product of the low words, unsigned; the high words are not read (R121). -/
def mulLowWords (a b : Word) : Word := w128 (uVal (lowWord a) * uVal (lowWord b))

/-- MUL: RES0 <- A · B mod 2^128 (R120). -/
def execMul (a b : Source) (s : State) : Host.Outcome State Fault Refusal :=
  .next (s.writeRes0 (mulWord (s.operandA a) (s.operandB b)) .success)

/-- MULW: RES0 <- A[63:0] · B[63:0] (R121). -/
def execMulw (a b : Source) (s : State) : Host.Outcome State Fault Refusal :=
  .next (s.writeRes0 (mulLowWords (s.operandA a) (s.operandB b)) .success)

end Sys2Proof.Machine
end

