-- ==== Sys2Proof/Machine/ShiftRotate.lean ====
section
/-! DEFINITION. The shifter and rotator (42_shift_rotate.md): SHL, SHRU, SHRS, ROL, ROR. All are unchecked
and write SUCCESS. -/

namespace Sys2Proof.Machine

/-- Shift left by `k`; 128 or more gives 0 (R130). -/
def shiftLeft (a : Word) (k : Nat) : Word :=
  if k = 0 then a else if k ≥ 128 then w128 0 else w128 (uVal a * 2 ^ k)

/-- Logical shift right by `k`; 128 or more gives 0 (R131). -/
def shiftRightLogical (a : Word) (k : Nat) : Word :=
  if k ≥ 128 then w128 0 else w128 (uVal a / 2 ^ k)

/-- Arithmetic shift right by `k`, rounding toward minus infinity; 128 or more gives the sign bit
everywhere (R132). -/
def shiftRightArith (a : Word) (k : Nat) : Word :=
  if k ≥ 128 then (if a.getLsbD 127 then ONES else w128 0) else w128 (sVal a / 2 ^ k)

/-- Rotate left by `n` below 128: for `n = 0` the second shift is by 128 and gives 0 (R133, R13). -/
def rotateLeftBy (a : Word) (n : Nat) : Word := a <<< n ||| a >>> (128 - n)

/-- Rotate right by `n` below 128 (R134). -/
def rotateRightBy (a : Word) (n : Nat) : Word := a >>> n ||| a <<< (128 - n)

/-- SHL: shift A left by u(B) (R130). -/
def execShl (a b : Source) (s : State) : Host.Outcome State Fault Refusal :=
  .next (s.writeRes0 (shiftLeft (s.operandA a) (shiftAmount (s.operandB b))) .success)

/-- SHRU: shift A right by u(B), zeros entering (R131). -/
def execShru (a b : Source) (s : State) : Host.Outcome State Fault Refusal :=
  .next (s.writeRes0 (shiftRightLogical (s.operandA a) (shiftAmount (s.operandB b))) .success)

/-- SHRS: shift A right by u(B), copies of the sign bit entering (R132). -/
def execShrs (a b : Source) (s : State) : Host.Outcome State Fault Refusal :=
  .next (s.writeRes0 (shiftRightArith (s.operandA a) (shiftAmount (s.operandB b))) .success)

/-- ROL: rotate A left by B[6:0] (R133). -/
def execRol (a b : Source) (s : State) : Host.Outcome State Fault Refusal :=
  .next (s.writeRes0 (rotateLeftBy (s.operandA a) (rotateAmount (s.operandB b))) .success)

/-- ROR: rotate A right by B[6:0] (R134). -/
def execRor (a b : Source) (s : State) : Host.Outcome State Fault Refusal :=
  .next (s.writeRes0 (rotateRightBy (s.operandA a) (rotateAmount (s.operandB b))) .success)

end Sys2Proof.Machine
end

