-- ==== Sys2Proof/Machine/Dispatch.lean ====
section
/-! DEFINITION. One arm per command of 30_encoding.md rule R82: the command's whole effect as one step,
from its operands' resolution to its completion (R86, R89, R254). -/

namespace Sys2Proof.Machine

def exec (i : Instr) (s : State) : Host.Outcome State Fault Refusal :=
  match i with
  | .pass a b => Sys2Proof.Machine.execPass a b s
  | .add a b => Sys2Proof.Machine.execAdd a b s
  | .sub a b => Sys2Proof.Machine.execSub a b s
  | .neg a _ => Sys2Proof.Machine.execNeg a s
  | .cmpu a b => Sys2Proof.Machine.execCmpu a b s
  | .cmps a b => Sys2Proof.Machine.execCmps a b s
  | .mul a b => Sys2Proof.Machine.execMul a b s
  | .mulw a b => Sys2Proof.Machine.execMulw a b s
  | .divu a b => Sys2Proof.Machine.execDivu a b s
  | .divs a b => Sys2Proof.Machine.execDivs a b s
  | .shl a b => Sys2Proof.Machine.execShl a b s
  | .shru a b => Sys2Proof.Machine.execShru a b s
  | .shrs a b => Sys2Proof.Machine.execShrs a b s
  | .rol a b => Sys2Proof.Machine.execRol a b s
  | .ror a b => Sys2Proof.Machine.execRor a b s
  | .popcnt a _ => Sys2Proof.Machine.execPopcnt a s
  | .clz a _ => Sys2Proof.Machine.execClz a s
  | .ctz a _ => Sys2Proof.Machine.execCtz a s
  | .clo a _ => Sys2Proof.Machine.execClo a s
  | .cto a _ => Sys2Proof.Machine.execCto a s
  | .bitwidth a _ => Sys2Proof.Machine.execBitwidth a s
  | .ffs a _ => Sys2Proof.Machine.execFfs a s
  | .fls a _ => Sys2Proof.Machine.execFls a s
  | .caddu a b => Sys2Proof.Machine.execCaddu a b s
  | .cadds a b => Sys2Proof.Machine.execCadds a b s
  | .csubu a b => Sys2Proof.Machine.execCsubu a b s
  | .csubs a b => Sys2Proof.Machine.execCsubs a b s
  | .cmulu a b => Sys2Proof.Machine.execCmulu a b s
  | .cmuls a b => Sys2Proof.Machine.execCmuls a b s
  | .cdivu a b => Sys2Proof.Machine.execCdivu a b s
  | .cdivs a b => Sys2Proof.Machine.execCdivs a b s
  | .sataddu a b => Sys2Proof.Machine.execSataddu a b s
  | .satadds a b => Sys2Proof.Machine.execSatadds a b s
  | .satsubu a b => Sys2Proof.Machine.execSatsubu a b s
  | .satsubs a b => Sys2Proof.Machine.execSatsubs a b s

end Sys2Proof.Machine
end

