-- ==== Sys2Proof/Machine/Handshake.lean ====
section
/-! DEFINITION. One rising edge of `clk` (70_reset_and_hazards.md rules R250 to R256): reset, the
completion of the command in progress, or the acceptance of the command on the port (10_state.md rule
R30). A completion runs `exec` on the captured command. -/

namespace Sys2Proof.Machine

/-- The completion of a captured command (R89 `complete`): a reserved FUNC reports ILLEGAL_OP and writes
nothing else (R90); a command of R82 runs on the captured operands. -/
def complete (p : Pending) (s : State) : Host.Outcome State Fault Refusal :=
  match decodeFunc (opFunc p.op) (.lit p.a) (.lit p.b) with
  | .ok i => exec i s
  | .error _ => .next (s.report .illegalOp)

/-- The acceptance of a command by an idle core: a command of latency 0 completes at the same edge, any
other becomes the command in progress (R252, R254). -/
def accept (c : Command) (s : State) : Host.Outcome State Fault Refusal :=
  let p := s.capture c
  if p.left = 0 then complete p s else .next (s.startPending p)

/-- A rising edge. `rst` overrides everything (R250). A command in progress moves on and completes at its
last edge (R253), and nothing is accepted or queued meanwhile (R255). An idle core accepts a presented
command (R252), and otherwise keeps every register (R235). -/
def clockEdge (s : State) : Host.Outcome State Fault Refusal :=
  if s.pins.rst then .next s.advance.resetRegisters
  else
    match s.pending with
    | some p => if p.left ≤ 1 then complete p s.advance else .next (s.advance.tick p)
    | none => if s.pins.inValid then accept s.pins.command s.advance else .next s.advance

/-- The port values of a host that presents the command `c`. -/
def PortSample.present (c : Command) : PortSample := ⟨false, true, c.op, c.inA, c.inB⟩

/-- The core is idle, takes no time over `c`, and `c` is what the host presents at the next edge. -/
def State.presentNext (c : Command) (s : State) : State :=
  { s with
    pending := none
    host := .present c :: s.host
    timing := { s.timing with rules := ⟨opFunc c.op, none, 0⟩ :: s.timing.rules } }

end Sys2Proof.Machine
end

