-- ==== Sys2Proof/Machine/Step.lean ====
section
/-! DEFINITION. The step function: one rising edge of `clk`. -/

namespace Sys2Proof.Machine

/-- One step of the machine: one rising edge of `clk` (10_state.md rules R30 and R43). -/
def step : State → Host.Outcome State Fault Refusal := fun s => clockEdge s

/-- `s`, with the command that the table word `w` spells presented on the command port at the next edge,
to a core that is idle and takes no time over it (assumption 4). -/
def State.withFetchWord (s : State) (nbits w : Nat) : State := s.presentNext (tableCommand nbits w)

end Sys2Proof.Machine
end

