-- ==== Sys2Proof/Machine/Assembler.lean ====
section
/-! DEFINITION. The assembler, the pseudo-instructions and the disassembler (30_encoding.md rules R92 to
R95; assumptions 9 and 10). They stand outside the machine: they turn text into commands for the host to
present, and back. Text is a list of characters. -/

namespace Sys2Proof.Machine

/-! ### Pseudo-instructions (R94) -/

/-- The pseudo-instructions, over resolved operand fields (R94). -/
inductive Pseudo where
  | nop
  | mov (a : Source)
  | movb (b : Source)
  | clr
  | inc (a : Source)
  | dec (a : Source)
  | not (a : Source)
  | swapw (a : Source)
  | cmpz (a : Source)
  deriving DecidableEq, Repr

/-- The commands a pseudo-instruction expands to (R94). -/
def Pseudo.expand : Pseudo → List Instr
  | .nop => [.pass .res .res]
  | .mov a => [.pass a .res]
  | .movb b => [.pass .res b]
  | .clr => [.pass (.lit 0) (.lit 0)]
  | .inc a => [.add a (.lit 1)]
  | .dec a => [.sub a (.lit 1)]
  | .not a => [.neg a (.lit 0), .sub .res (.lit 1)]
  | .swapw a => [.rol a (.lit 64)]
  | .cmpz a => [.cmpu a (.lit 0)]

/-! ### Operands and lines (R92) -/

/-- An operand as written: `R0`, `R1` or `#lit` (R92). -/
inductive AsmOperand where
  | r0
  | r1
  | lit (n : Int)
  deriving DecidableEq, Repr

/-- Why a line is an assembly error. -/
inductive AsmError where
  /-- `R1` in the first position (R92). -/
  | r1AsFirst
  /-- `R0` in the second position (R92). -/
  | r0AsSecond
  /-- A literal outside SMIN to UMAX (R93), or a raw opcode outside a byte. -/
  | outOfRange
  /-- No operand or literal of R92 and R93. -/
  | badOperand
  /-- A number of operands that the command does not take. -/
  | operandCount
  | unknownMnemonic
  deriving DecidableEq, Repr

/-- A line of source: nothing, a mnemonic with its operands, or the directive `.cmd op, a, b` (R92). -/
inductive AsmLine where
  | empty
  | named (mnemonic : List Char) (operands : List AsmOperand)
  | raw (op a b : Int)
  deriving DecidableEq, Repr

/-- The field emitted for a literal is `w(n)`, for `SMIN <= n <= UMAX` (R93). -/
def literalField (n : Int) : Except AsmError Word :=
  if SMIN ≤ n ∧ n ≤ UMAX then .ok (w128 n) else .error .outOfRange

/-- `opA` of R92: `R0` or a literal. -/
def assembleA : AsmOperand → Except AsmError Source
  | .r0 => .ok .res
  | .r1 => .error .r1AsFirst
  | .lit n => (literalField n).map .lit

/-- `opB` of R92: `R1` or a literal. -/
def assembleB : AsmOperand → Except AsmError Source
  | .r0 => .error .r0AsSecond
  | .r1 => .ok .res
  | .lit n => (literalField n).map .lit

/-- The mnemonic of a command (R82). -/
def mnemonicOf : Instr → List Char
  | .pass _ _ => ['P', 'A', 'S', 'S']
  | .add _ _ => ['A', 'D', 'D']
  | .sub _ _ => ['S', 'U', 'B']
  | .neg _ _ => ['N', 'E', 'G']
  | .cmpu _ _ => ['C', 'M', 'P', 'U']
  | .cmps _ _ => ['C', 'M', 'P', 'S']
  | .mul _ _ => ['M', 'U', 'L']
  | .mulw _ _ => ['M', 'U', 'L', 'W']
  | .divu _ _ => ['D', 'I', 'V', 'U']
  | .divs _ _ => ['D', 'I', 'V', 'S']
  | .shl _ _ => ['S', 'H', 'L']
  | .shru _ _ => ['S', 'H', 'R', 'U']
  | .shrs _ _ => ['S', 'H', 'R', 'S']
  | .rol _ _ => ['R', 'O', 'L']
  | .ror _ _ => ['R', 'O', 'R']
  | .popcnt _ _ => ['P', 'O', 'P', 'C', 'N', 'T']
  | .clz _ _ => ['C', 'L', 'Z']
  | .ctz _ _ => ['C', 'T', 'Z']
  | .clo _ _ => ['C', 'L', 'O']
  | .cto _ _ => ['C', 'T', 'O']
  | .bitwidth _ _ => ['B', 'I', 'T', 'W', 'I', 'D', 'T', 'H']
  | .ffs _ _ => ['F', 'F', 'S']
  | .fls _ _ => ['F', 'L', 'S']
  | .caddu _ _ => ['C', 'A', 'D', 'D', 'U']
  | .cadds _ _ => ['C', 'A', 'D', 'D', 'S']
  | .csubu _ _ => ['C', 'S', 'U', 'B', 'U']
  | .csubs _ _ => ['C', 'S', 'U', 'B', 'S']
  | .cmulu _ _ => ['C', 'M', 'U', 'L', 'U']
  | .cmuls _ _ => ['C', 'M', 'U', 'L', 'S']
  | .cdivu _ _ => ['C', 'D', 'I', 'V', 'U']
  | .cdivs _ _ => ['C', 'D', 'I', 'V', 'S']
  | .sataddu _ _ => ['S', 'A', 'T', 'A', 'D', 'D', 'U']
  | .satadds _ _ => ['S', 'A', 'T', 'A', 'D', 'D', 'S']
  | .satsubu _ _ => ['S', 'A', 'T', 'S', 'U', 'B', 'U']
  | .satsubs _ _ => ['S', 'A', 'T', 'S', 'U', 'B', 'S']

/-- The command a mnemonic names, with the given fields; mnemonics are in capitals here. -/
def commandNamed (name : List Char) (a b : Source) : Option Instr :=
  (List.range 64).findSome? fun f =>
    match decodeFunc (BitVec.ofNat 6 f) a b with
    | .ok i => if mnemonicOf i = name then some i else none
    | .error _ => none

/-- A pseudo-instruction by its name and operands (R94). -/
def pseudoNamed (name : List Char) (operands : List AsmOperand) : Except AsmError Pseudo :=
  match name, operands with
  | ['N', 'O', 'P'], [] => .ok .nop
  | ['M', 'O', 'V'], [x] => (assembleA x).map .mov
  | ['M', 'O', 'V', 'B'], [x] => (assembleB x).map .movb
  | ['C', 'L', 'R'], [] => .ok .clr
  | ['I', 'N', 'C'], [x] => (assembleA x).map .inc
  | ['D', 'E', 'C'], [x] => (assembleA x).map .dec
  | ['N', 'O', 'T'], [x] => (assembleA x).map .not
  | ['S', 'W', 'A', 'P', 'W'], [x] => (assembleA x).map .swapw
  | ['C', 'M', 'P', 'Z'], [x] => (assembleA x).map .cmpz
  | _, _ => .error .unknownMnemonic

/-- The operand fields of a command: a unary command takes `opA` alone and emits BSEL = 0 and `in_b = 0`,
any other takes both (R92). -/
def assembleFields (isUnary : Bool) : List AsmOperand → Except AsmError (Source × Source)
  | [x] =>
    if isUnary then (assembleA x).map fun a => (a, .lit 0) else .error .operandCount
  | [x, y] =>
    if isUnary then .error .operandCount
    else
      match assembleA x, assembleB y with
      | .ok a, .ok b => .ok (a, b)
      | .error e, _ => .error e
      | .ok _, .error e => .error e
  | _ => .error .operandCount

/-- The commands that a mnemonic with its operands stands for: one command, or a pseudo-instruction's
expansion (R92, R94). -/
def assembleNamed (name : List Char) (operands : List AsmOperand) : Except AsmError (List Instr) :=
  match commandNamed name (.lit 0) (.lit 0) with
  | some i =>
    (assembleFields i.unary operands).map fun p => (commandNamed name p.1 p.2).toList
  | none => (pseudoNamed name operands).map Pseudo.expand

/-- The command of the directive `.cmd op, a, b`, with any opcode byte (R92). R92 gives `a` and `b` no range and
no sign: that they take a `-` and the range of a literal, SMIN to UMAX (R93), and emit `w(n)` as a literal does,
is the model's choice (assumption 9, DESIGN CHOICE). -/
def assembleRaw (op a b : Int) : Except AsmError Command :=
  if 0 ≤ op ∧ op ≤ 255 then
    match literalField a, literalField b with
    | .ok x, .ok y => .ok ⟨BitVec.ofInt 8 op, x, y⟩
    | .error e, _ => .error e
    | .ok _, .error e => .error e
  else .error .outOfRange

/-- The commands a line stands for. -/
def assembleLine : AsmLine → Except AsmError (List Command)
  | .empty => .ok []
  | .named name operands => (assembleNamed name operands).map fun is => is.map encode
  | .raw op a b => (assembleRaw op a b).map fun c => [c]

/-! ### Literals (R93) -/

/-- The value of a digit, in hexadecimal and case-insensitive. -/
def digitValue (c : Char) : Option Nat :=
  let n := c.toNat
  if 48 ≤ n ∧ n ≤ 57 then some (n - 48)
  else if 65 ≤ n ∧ n ≤ 70 then some (n - 55)
  else if 97 ≤ n ∧ n ≤ 102 then some (n - 87)
  else none

/-- The digit separators, ignored between digits (R93). -/
def isSeparator (c : Char) : Bool := c = '\'' || c = '_'

/-- The value of digits in a base, the most significant first, after the value `acc`. -/
def digitsFrom (base acc : Nat) : List Char → Option Nat
  | [] => some acc
  | c :: cs =>
    match digitValue c with
    | some d => if d < base then digitsFrom base (acc * base + d) cs else none
    | none => none

/-- The value of a digit string: digits, with separators between them (R93). -/
def parseDigits (base : Nat) (cs : List Char) : Option Nat :=
  match cs.head?, cs.getLast? with
  | some c, some d =>
    if isSeparator c || isSeparator d then none
    else digitsFrom base 0 (cs.filter fun x => !isSeparator x)
  | _, _ => none

/-- The value of a number without its sign: `0x` and hexadecimal digits (the form of 00_scope.md rule R10
among them), `0b` and binary digits, or decimal digits (R93). -/
def parseMagnitude : List Char → Option Nat
  | '0' :: 'x' :: cs => parseDigits 16 cs
  | '0' :: 'X' :: cs => parseDigits 16 cs
  | '0' :: 'b' :: cs => parseDigits 2 cs
  | cs => parseDigits 10 cs

/-- The value of a number, with an optional `-` (R93). -/
def parseNumber : List Char → Option Int
  | '-' :: cs => (parseMagnitude cs).map fun n => -(n : Int)
  | cs => (parseMagnitude cs).map fun n => (n : Int)

/-- An operand: `R0`, `R1`, or `#` and a number (R92, R93). -/
def parseOperand : List Char → Except AsmError AsmOperand
  | ['R', '0'] => .ok .r0
  | ['R', '1'] => .ok .r1
  | '#' :: cs =>
    match parseNumber cs with
    | some n => .ok (.lit n)
    | none => .error .badOperand
  | _ => .error .badOperand

/-! ### Lines of text (R92) -/

def isBlank (c : Char) : Bool := c = ' ' || c = '\t'

/-- The text without the blanks at its ends. -/
def trim (cs : List Char) : List Char := ((cs.dropWhile isBlank).reverse.dropWhile isBlank).reverse

/-- A letter in capitals: mnemonics are case-insensitive (R92). -/
def upper (c : Char) : Char := if 97 ≤ c.toNat ∧ c.toNat ≤ 122 then Char.ofNat (c.toNat - 32) else c

/-- The parts of a text between commas, each without the blanks at its ends. -/
def commaParts (cs : List Char) : List (List Char) := (cs.splitOn ',').map trim

/-- The operands of a line, from the parts between commas. -/
def parseOperands : List (List Char) → Except AsmError (List AsmOperand)
  | [] => .ok []
  | p :: ps =>
    match parseOperand p, parseOperands ps with
    | .ok x, .ok xs => .ok (x :: xs)
    | .error e, _ => .error e
    | .ok _, .error e => .error e

/-- A line of text: a `;` starts a comment; then a mnemonic and its operands, or `.cmd` and three
numbers (R92). -/
def parseLine (text : List Char) : Except AsmError AsmLine :=
  let body := trim (text.takeWhile fun c => c ≠ ';')
  let name := body.takeWhile fun c => !isBlank c
  let rest := trim (body.dropWhile fun c => !isBlank c)
  if body = [] then .ok .empty
  else if name = ['.', 'c', 'm', 'd'] then
    match (commaParts rest).map parseNumber with
    | [some op, some a, some b] => .ok (.raw op a b)
    | _ => .error .badOperand
  else if rest = [] then .ok (.named (name.map upper) [])
  else (parseOperands (commaParts rest)).map fun xs => .named (name.map upper) xs

/-- The commands a line of text stands for. -/
def assembleText (text : List Char) : Except AsmError (List Command) :=
  match parseLine text with
  | .ok line => assembleLine line
  | .error e => .error e

/-! ### Disassembly (R95) -/

/-- A hexadecimal digit. R10 and R95 say "hex digits" and not in which case a letter stands: the capitals A to
F are the model's choice (assumption 10, DESIGN CHOICE). -/
def hexDigit (n : Nat) : Char := Char.ofNat (if n < 10 then 48 + n else 55 + n)

/-- The lowest `k` hexadecimal digits of `n`, the most significant first. -/
def hexDigits (n : Nat) : Nat → List Char
  | 0 => []
  | k + 1 => hexDigits (n / 16) k ++ [hexDigit (n % 16)]

/-- A value in the form of 00_scope.md rule R10. -/
def hexForm (v : Word) : List Char :=
  '0' :: 'x' :: hexDigits (v.toNat / 2 ^ 64) 16 ++ '_' :: hexDigits (v.toNat % 2 ^ 64) 16

/-- An operand field as printed: the register if its select bit is set, and otherwise `#` and the port's
value (R95). -/
def printSource (register : List Char) (x : Source) : List Char :=
  if x.sel then register else '#' :: hexForm x.imm

/-- A command as a disassembler prints it: `.cmd` stands for a reserved FUNC, and a unary command prints
no second operand (R95). The blanks are the model's choice (assumption 10, DESIGN CHOICE). -/
def disassemble (c : Command) : List Char :=
  let a := printSource ['R', '0'] c.srcA
  let b := ',' :: ' ' :: printSource ['R', '1'] c.srcB
  match decode c with
  | .ok i => mnemonicOf i ++ ' ' :: a ++ if i.unary then [] else b
  | .error _ => '.' :: 'c' :: 'm' :: 'd' :: ' ' :: a ++ b

end Sys2Proof.Machine
end

