-- ==== Sys2Proof/Machine/Reference.lean ====
section
/-! DEFINITION. The methods the spec gives beside a command's result: the document's own constructions and
the reference long division. No command is defined by them: an implementation may use any
of them or any other (00_scope.md rule R7), and each has the results of the commands' rules. -/

namespace Sys2Proof.Machine

/-- The three-way answer -1, 0 or 1, decided by the high words and, when they are equal, by the low
words. -/
def wordwiseThreeWay (ha hb la lb : Int) : Word :=
  if ha = hb then threeWay la lb else threeWay ha hb

/-- "unsigned compares both words unsigned" (R104). -/
def compareUnsignedWords (a b : Word) : Word :=
  wordwiseThreeWay (uVal (highWord a)) (uVal (highWord b)) (uVal (lowWord a)) (uVal (lowWord b))

/-- "signed compares `high` as signed with `low` as an unsigned tie-break" (R105). -/
def compareSignedWords (a b : Word) : Word :=
  wordwiseThreeWay (sVal (highWord a)) (sVal (highWord b)) (uVal (lowWord a)) (uVal (lowWord b))

/-- The document's 128-bit product from word products (R120). -/
def mulFromWords (a b : Word) : Word :=
  let p00 := uVal (lowWord a) * uVal (lowWord b)
  let p01 := uVal (lowWord a) * uVal (highWord b) % 2 ^ 64
  let p10 := uVal (highWord a) * uVal (lowWord b) % 2 ^ 64
  w128 (p00 + (p01 + p10) * 2 ^ 64)

/-- The document's 64 by 64 product from four cross products of 32-bit halves (R121). -/
def mulFromHalves (a b : BitVec 64) : Word :=
  let a0 := uVal (a.extractLsb' 0 32)
  let a1 := uVal (a.extractLsb' 32 32)
  let b0 := uVal (b.extractLsb' 0 32)
  let b1 := uVal (b.extractLsb' 32 32)
  w128 (a0 * b0 + (a0 * b1 + a1 * b0) * 2 ^ 32 + a1 * b1 * 2 ^ 64)

/-- One pass of the long division at bit position `i`: the running remainder is shifted left, the next
dividend bit is pulled in, and a quotient bit is recorded when the divisor fits (R154). -/
def longDivisionPass (n d : Word) (i : Nat) (q : Word) (r : Nat) : Word × Nat :=
  let r' := 2 * r + (n.getLsbD i).toNat
  if r' ≥ d.toNat then (q ||| BitVec.twoPow 128 i, r' - d.toNat) else (q, r')

/-- The passes at the bit positions `k - 1` down to 0. -/
def longDivisionFrom (n d : Word) : Nat → Word → Nat → Word × Nat
  | 0, q, r => (q, r)
  | k + 1, q, r =>
    let p := longDivisionPass n d k q r
    longDivisionFrom n d k p.1 p.2

/-- `divu_long(N, D)`, binary long division, for a nonzero divisor (R154). -/
def divuLong (n d : Word) : Word × Word :=
  let p := longDivisionFrom n d 128 0 0
  (p.1, BitVec.ofNat 128 p.2)

/-- The magnitude `|s(v)|` as a pattern; |SMIN| fits (R151). -/
def magnitude (v : Word) : Word := w128 (sVal v).natAbs

/-- DIVS as the document computes it: long division of the magnitudes, then the signs (R151, R154). -/
def divsLong (n d : Word) : Word × Word :=
  let p := divuLong (magnitude n) (magnitude d)
  (if decide (sVal n < 0) != decide (sVal d < 0) then negWord p.1 else p.1,
    if sVal n < 0 then negWord p.2 else p.2)

/-- `clz64`, with `clz64(0) = 64` (R171). -/
def clz64 (v : BitVec 64) : Nat := ((List.range 64).find? fun j => v.getLsbD (63 - j)).getD 64

/-- `ctz64`, with `ctz64(0) = 64` (R172). -/
def ctz64 (v : BitVec 64) : Nat := ((List.range 64).find? fun j => v.getLsbD j).getD 64

/-- The number of set bits of one word (R170). -/
def popcount64 (v : BitVec 64) : Nat := (List.range 64).countP fun i => v.getLsbD i

/-- The document's leading-zero count: the high word first, then the low word (+64) (R171). -/
def clzByWords (v : Word) : Nat :=
  if highWord v ≠ 0 then clz64 (highWord v) else 64 + clz64 (lowWord v)

/-- The per-word trailing-zero count: the low word first, then the high word (+64) (R172). -/
def ctzByWords (v : Word) : Nat :=
  if lowWord v ≠ 0 then ctz64 (lowWord v) else 64 + ctz64 (highWord v)

end Sys2Proof.Machine
end

