-- ==== Sys2Proof/Machine/System.lean ====
section
/-! DEFINITION. Several instances of the block, in a number that is OPEN (00_scope.md rule R8). They share
nothing: an edge of one instance's clock is a step of that instance alone (20_memory.md rule R70). -/

namespace Sys2Proof.Machine

/-- The instances of a system. -/
abbrev System := List State

/-- A rising edge of instance `k`'s clock; without such an instance nothing happens. -/
def System.stepAt (k : Nat) (sys : System) : Host.Outcome System Fault Refusal :=
  match sys[k]? with
  | none => .next sys
  | some s =>
    match step s with
    | .next t => .next (sys.set k t)
    | .fault r => .fault r
    | .refused r => .refused r

end Sys2Proof.Machine
end

