-- ==== Sys2Proof/Safety.lean ====
section
/-! DEFINITION. What a run may be relied on for: the machine's invariant, what a host may take as a result
(70_reset_and_hazards.md rules R259 and R260), and when a run has ended (R265). -/

namespace Sys2Proof

open Sys2Proof.Machine

/-- The invariant of the core's registers: it holds at reset and every step keeps it. -/
structure Invariant (s : State) : Prop where
  /-- STATUS is never 4, 5 or 6 (10_state.md rule R33). -/
  statusNamed : s.status.named = true
  /-- VALID = 0 while a command is in progress (R35). -/
  busyHidesResult : s.busy = true → s.valid = false
  /-- A command in progress has at least one edge and at most MAX_LAT edges to go (R253, R263). -/
  pendingIsTimed : ∀ p, s.pending = some p → 1 ≤ p.left ∧ p.left ≤ s.timing.maxLat
  /-- An idle core with VALID = 0 has run no command since reset, so its port shows the reset values
  (R35, R260). -/
  quietAfterReset : s.busy = false → s.valid = false →
    s.res0 = 0 ∧ s.res1 = 0 ∧ s.status = .success

/-- What the host may sample as a command's results: the result port while VALID = 1 (R260). -/
def sample (s : State) : Option (Word × Word × BitVec 3) :=
  if s.outValid then some (s.outR, s.outX, s.outStatus) else none

/-- The host does not reset at any of the next `k` edges. -/
def NoReset (k : Nat) (s : State) : Prop := ∀ p ∈ s.host.take k, p.rst = false

/-- `k` edges of the clock. -/
def runEdges : Nat → State → Host.Outcome State Fault Refusal
  | 0, s => .next s
  | k + 1, s =>
    match step s with
    | .next t => runEdges k t
    | .fault r => .fault r
    | .refused r => .refused r

/-! ### A run of a host program and its end (R265, assumption 16) -/

/-- A run of a host program so far: the machine, and what the host did. Nothing here is a part of the block,
and no edge reads it: sampling the result port has no side effect (20_memory.md rule R64). -/
structure HostRun where
  core : State
  /-- The last command that the host has presented was accepted at its last presentation. -/
  lastAccepted : Bool
  /-- The host has sampled the results of the latest accepted command. -/
  lastSampled : Bool
  /-- What the host has sampled: one entry for each command it sampled after, the earliest first. -/
  record : List (Word × Word × BitVec 3)
  deriving DecidableEq, Repr

/-- A run that begins: nothing has been presented or sampled. -/
def HostRun.start (s : State) : HostRun := ⟨s, false, false, []⟩

/-- The host has already sampled the command that is the latest accepted one after the coming edge. -/
def HostRun.hasSampled (r : HostRun) : Bool := r.lastSampled && !r.core.accepts

/-- What the host takes from the result port in the cycle after an edge that leads to `t`: nothing while
VALID = 0 (R260), and one entry for each command. -/
def HostRun.takes (samples : Bool) (t : State) (r : HostRun) : Option (Word × Word × BitVec 3) :=
  if samples && !r.hasSampled then sample t else none

/-- The run after an edge that leads to `t`. `samples`: the host samples the result port in the cycle after
the edge. -/
def HostRun.observe (samples : Bool) (t : State) (r : HostRun) : HostRun :=
  { core := t
    lastAccepted := if r.core.pins.inValid then r.core.accepts else r.lastAccepted
    lastSampled := r.hasSampled || (r.takes samples t).isSome
    record := r.record ++ (r.takes samples t).toList }

/-- One edge of a run. -/
def HostRun.edge (samples : Bool) (r : HostRun) : Host.Outcome HostRun Fault Refusal :=
  match step r.core with
  | .next t => .next (r.observe samples t)
  | .fault e => .fault e
  | .refused e => .refused e

/-- The edges of a run, one for each of the host's decisions to sample after it or not. -/
def HostRun.edges : List Bool → HostRun → Host.Outcome HostRun Fault Refusal
  | [], r => .next r
  | b :: bs, r =>
    match r.edge b with
    | .next q => q.edges bs
    | .fault e => .fault e
    | .refused e => .refused e

/-- A run has ended (R265): the host has presented its last command, that command has been accepted and has
completed (BUSY = 0, VALID = 1), and the host has sampled the result port. -/
structure RunEnded (r : HostRun) : Prop where
  /-- The host presents nothing at any coming edge. -/
  presentsNoMore : ∀ p ∈ r.core.host, p.inValid = false
  lastAccepted : r.lastAccepted = true
  notBusy : r.core.busy = false
  valid : r.core.valid = true
  lastSampled : r.lastSampled = true

/-- The end state of a run: the quadruple (RES0, RES1, STATUS, VALID), and the host's record (R265). -/
def endState (r : HostRun) : (Word × Word × Status × Bool) × List (Word × Word × BitVec 3) :=
  ((r.core.res0, r.core.res1, r.core.status, r.core.valid), r.record)

/-! ### The view without time -/

/-- The commands of `is`, one after another, each as one atomic step: the view without time that R254
allows. -/
def runCommands : List Instr → State → Host.Outcome State Fault Refusal
  | [], s => .next s
  | i :: is, s =>
    match exec i s with
    | .next t => runCommands is t
    | .fault r => .fault r
    | .refused r => .refused r

end Sys2Proof
end

