-- ==== Sys2Proof/Certificates/Slice0/Obligations.lean ====
section
/-! DEFINITION. The statements for the provers. Where a statement speaks of a command's result, it gives the
whole next state: every register that is not named is unchanged. -/

open Sys2Proof Sys2Proof.Machine

/-! ### Reset and the clock edge -/

/-- R45. -/
def Obligations.ResetValues : Prop :=
  (State.reset.res0 = 0x00000000000000000000000000000000#128 ∧
    State.reset.res1 = 0x00000000000000000000000000000000#128 ∧
    State.reset.status.code = 0 ∧ State.reset.valid = false ∧ State.reset.busy = false ∧
    State.reset.pending = none) ∧
  ∀ s : State, s.resetRegisters.res0 = 0 ∧ s.resetRegisters.res1 = 0 ∧
    s.resetRegisters.status = .success ∧ s.resetRegisters.valid = false ∧
    s.resetRegisters.busy = false ∧ s.resetRegisters.pending = none

/-- R250: an edge with `rst = 1`, whatever else the ports hold and whatever is in progress. That the port
values move on (`host := s.host.tail`) is no rule of the spec: it is the model's choice (assumption 3). -/
def Obligations.ResetEdgeOverridesEverything : Prop :=
  ∀ s : State, s.pins.rst = true →
    s.inReady = false ∧
    step s = .next { s with
      res0 := 0, res1 := 0, status := .success, valid := false, pending := none, host := s.host.tail }

/-- R44. The `rst` in `in_ready` is the value the host drives. -/
def Obligations.OutputsAreDrivenFromRegisters : Prop :=
  (∀ s : State, s.outR = s.res0 ∧ s.outX = s.res1 ∧ s.outStatus = s.status.code ∧
    s.outValid = s.valid ∧ (s.inReady = true ↔ s.busy = false ∧ s.pins.rst = false)) ∧
  ∀ (s : State) (p q : PortSample) (rest : List PortSample), p.rst = q.rst →
    let x : State := { s with host := p :: rest }
    let y : State := { s with host := q :: rest }
    x.outR = y.outR ∧ x.outX = y.outX ∧ x.outStatus = y.outStatus ∧ x.outValid = y.outValid ∧
      x.inReady = y.inReady

/-- The numbers of R33's table. -/
def Obligations.StatusCodeNumbers : Prop :=
  Status.success.code = 0 ∧ Status.overflow.code = 1 ∧ Status.underflow.code = 2 ∧
    Status.invalidInput.code = 3 ∧ Status.illegalOp.code = 7 ∧
    ∀ c : Status, c.named = true ↔ c.code = 0 ∨ c.code = 1 ∨ c.code = 2 ∨ c.code = 3 ∨ c.code = 7

/-- The invariant holds at reset. -/
def Obligations.InvariantAtReset : Prop := Invariant State.reset

/-- The invariant: STATUS is never 4 to 6 (R33), VALID is 0 while a command is in progress (R35), a command
in progress has 1 to MAX_LAT edges to go (R253, R262), and an idle core with VALID = 0 shows the reset
values (R35, R260). -/
def Obligations.StepKeepsInvariant : Prop :=
  ∀ s t : State, Invariant s → step s = .next t → Invariant t

/-- No edge faults or refuses: the block never hangs, traps or refuses (R220, R227, R263). -/
def Obligations.StepAlwaysHasNextState : Prop := ∀ s : State, ∃ t : State, step s = .next t

/-! ### Encoding -/

/-- R80 to R82: decoding the encoding of any command gives it back, with both its fields. -/
def Obligations.DecodeOfEncode : Prop := ∀ i : Instr, decode (encode i) = .ok i

/-- R80 to R82: a command that decodes is the encoding of what it decodes to, bit for bit. -/
def Obligations.EncodeOfDecode : Prop :=
  ∀ (c : Command) (i : Instr), decode c = .ok i → encode i = c

/-- R84, R91: the defined FUNC values are exactly the 35, with any ASEL and BSEL and any operand fields;
every other value is rejected as reserved, by its number. -/
def Obligations.DefinedFuncValues : Prop :=
  definedFuncs.length = 35 ∧ reservedFuncs.length = 29 ∧
  ∀ c : Command,
    ((∃ i, decode c = .ok i) ↔ opFunc c.op ∈ definedFuncs) ∧
    (opFunc c.op ∉ definedFuncs ↔ opFunc c.op ∈ reservedFuncs) ∧
    (opFunc c.op ∈ reservedFuncs → decode c = .error (.reservedFunc (opFunc c.op)))

/-- Opcode bytes written out from R81 and R82, one or two for each family. -/
def Obligations.WrittenOutOpcodeBytes : Prop :=
  decode ⟨0b10000000, 10, 0⟩ = .ok (.pass ⟨false, 10⟩ ⟨true, 0⟩) ∧
  decode ⟨0b01000001, 0, 1⟩ = .ok (.add ⟨true, 0⟩ ⟨false, 1⟩) ∧
  decode ⟨0b00001001, 2, 3⟩ = .ok (.mulw ⟨false, 2⟩ ⟨false, 3⟩) ∧
  decode ⟨0b11001101, 0, 0⟩ = .ok (.divs ⟨true, 0⟩ ⟨true, 0⟩) ∧
  decode ⟨0b01010100, 0, 4⟩ = .ok (.ror ⟨true, 0⟩ ⟨false, 4⟩) ∧
  decode ⟨0b00011101, 255, 0⟩ = .ok (.bitwidth ⟨false, 255⟩ ⟨false, 0⟩) ∧
  decode ⟨0b01100111, 0, 5⟩ = .ok (.cdivs ⟨true, 0⟩ ⟨false, 5⟩) ∧
  decode ⟨0b01101010, 0, 1⟩ = .ok (.satsubu ⟨true, 0⟩ ⟨false, 1⟩) ∧
  decode ⟨0b11111111, 0, 0⟩ = .error (.reservedFunc 0b111111)

/-! ### The handshake -/

/-- A step runs the decoded instruction (R252, R254): at an edge of an idle core where the presented command
decodes and has latency 0, the step is `exec` of it, past the sampled port values (assumption 3). -/
def Obligations.StepRunsPresentedCommand : Prop :=
  ∀ (s : State) (i : Instr), s.pins.rst = false → s.pins.inValid = true → s.pending = none →
    decode s.pins.command = .ok i →
    latency s.timing i.func (s.operandA i.srcA) (s.operandB i.srcB) = 0 →
    step s = exec i { s with host := s.host.tail }

/-- R252 for a command of nonzero latency: what acceptance samples, resolves and records (assumptions 2, 3
and 6 for the form of the record and of time). -/
def Obligations.AcceptanceRecordsCommand : Prop :=
  ∀ s : State, s.pins.rst = false → s.pins.inValid = true → s.busy = false →
    let a := if s.pins.inOp.getLsbD 6 then s.res0 else s.pins.inA
    let b := if s.pins.inOp.getLsbD 7 then s.res1 else s.pins.inB
    let lat := latency s.timing (s.pins.inOp.extractLsb' 0 6) a b
    0 < lat →
    s.inReady = true ∧
    step s = .next { s with
      valid := false
      pending := some { op := s.pins.inOp, a := a, b := b, left := lat }
      host := s.host.tail }

/-- R253: an accepted command completes LAT edges after its acceptance, unless a reset intervenes, and what
lands is the command's effect on the registers it was accepted over, whatever the host presents meanwhile.
For LAT = 0 it lands at the acceptance edge itself (R254). The form of time is that of assumptions 2 and 3. -/
def Obligations.CommandCompletesAfterLatency : Prop :=
  ∀ (s : State) (i : Instr), s.pins.inValid = true → s.pending = none →
    decode s.pins.command = .ok i →
    let lat := latency s.timing i.func (s.operandA i.srcA) (s.operandB i.srcB)
    NoReset (lat + 1) s →
    runEdges (lat + 1) s = exec i { s with host := s.host.drop (lat + 1) }

/-- R90: a command with a reserved FUNC, any ASEL and BSEL, is accepted like any other and completes within
MAX_LAT with the code ILLEGAL_OP alone. That the port values move on with the edges (`host := s.host.drop …`,
assumption 3) and that the latency is read off the resolved operands (assumption 2) are the model's choices. -/
def Obligations.ReservedFuncReportsIllegalOp : Prop :=
  ∀ s : State, s.pins.inValid = true → s.pending = none →
    opFunc s.pins.inOp ∈ [0x06, 0x07, 0x0A, 0x0B, 0x0E, 0x0F, 0x15, 0x16, 0x17] ∨
      0x2C ≤ opFunc s.pins.inOp →
    let lat := latency s.timing (opFunc s.pins.inOp) (s.operandA s.pins.command.srcA)
      (s.operandB s.pins.command.srcB)
    lat ≤ s.timing.maxLat ∧
    (NoReset (lat + 1) s →
      runEdges (lat + 1) s = .next { s with
        status := .illegalOp, valid := true, pending := none, host := s.host.drop (lat + 1) })

/-- R255, R256: the command port matters at an acceptance edge only. While a command is in progress, and
while `in_valid = 0`, an edge does the same whatever `in_op`, `in_a` and `in_b` hold; while one is in
progress `in_valid` has no effect either, and nothing is accepted or queued. An idle core that is presented
nothing keeps every register (R235). The count of the edges left (`left := p.left - 1`, assumption 6) and the
port values moving on (`host := s.host.tail`, assumption 3) are the model's choices. -/
def Obligations.CommandPortMattersOnlyAtAcceptance : Prop :=
  (∀ (s : State) (p q : PortSample) (rest : List PortSample), p.rst = q.rst →
    s.busy = true ∨ (p.inValid = false ∧ q.inValid = false) →
    step { s with host := p :: rest } = step { s with host := q :: rest }) ∧
  (∀ (s t : State) (p : Pending), s.pending = some p → s.pins.rst = false → step s = .next t →
    t.pending = none ∨ t.pending = some { p with left := p.left - 1 }) ∧
  ∀ s : State, s.busy = false → s.pins.inValid = false → s.pins.rst = false →
    step s = .next { s with host := s.host.tail }

/-- R263, R262: a command in progress completes within MAX_LAT edges, unless a reset comes first; so does
every command from its acceptance, whose latency is at most MAX_LAT. -/
def Obligations.PendingCommandTerminates : Prop :=
  (∀ s : State, Invariant s → s.busy = true → NoReset s.timing.maxLat s →
    ∃ k, k ≤ s.timing.maxLat ∧ ∃ t, runEdges k s = .next t ∧ t.busy = false ∧ t.valid = true) ∧
  ∀ s : State, s.busy = false → s.pins.inValid = true → NoReset (s.timing.maxLat + 1) s →
    ∃ k, k ≤ s.timing.maxLat ∧ ∃ t, runEdges (k + 1) s = .next t ∧ t.busy = false ∧ t.valid = true

/-- R262: LAT is at most MAX_LAT, and it is a fixed function of FUNC and the operands: no edge changes it. -/
def Obligations.LatencyIsAFixedBoundedFunction : Prop :=
  (∀ (t : Timing) (f : BitVec 6) (a b : Word), latency t f a b ≤ t.maxLat) ∧
  ∀ (s t : State) (f : BitVec 6) (a b : Word), step s = .next t →
    latency t.timing f a b = latency s.timing f a b

/-- R252, R260: while a command is in progress and no completion or reset is due, the result port keeps
showing the values from before it. -/
def Obligations.ResultPortHoldsUntilCompletion : Prop :=
  ∀ s t : State, Invariant s → s.pins.rst = false → step s = .next t → t.busy = true →
    t.outR = s.outR ∧ t.outX = s.outX ∧ t.outStatus = s.outStatus ∧ t.outValid = false

/-! ### All commands -/

/-- R32: what a completion writes, for every command, and for a reserved FUNC. -/
def Obligations.CompletionWritesOnlyItsRegisters : Prop :=
  (∀ (i : Instr) (s : State), ∃ (r0 r1 : Word) (st : Status),
    exec i s = .next { s with res0 := r0, res1 := r1, status := st, valid := true, pending := none } ∧
    (i.func ∉ [0x00, 0x0C, 0x0D, 0x26, 0x27] → r1 = s.res1)) ∧
  ∀ (p : Pending) (s : State), opFunc p.op ∈ reservedFuncs →
    complete p s = .next { s with status := .illegalOp, valid := true, pending := none }

/-- The status column of R82, and R34: which codes each command can write. -/
def Obligations.StatusCodesOfEachCommand : Prop :=
  ∀ (i : Instr) (s t : State), exec i s = .next t →
    t.status = .success ∨
    (t.status = .overflow ∧ i.func ∈ [0x20, 0x21, 0x23, 0x24, 0x25, 0x27]) ∨
    (t.status = .underflow ∧ i.func ∈ [0x21, 0x22, 0x23, 0x25]) ∨
    (t.status = .invalidInput ∧ i.func ∈ [0x26, 0x27])

/-- R221: a command that reports an error writes 0 to RES0, and to RES1 where it writes RES1. -/
def Obligations.ErrorsWriteZeros : Prop :=
  ∀ (i : Instr) (s t : State), exec i s = .next t → t.status ≠ .success →
    t.res0 = 0 ∧ (i.func ∈ [0x26, 0x27] → t.res1 = 0) ∧ (i.func ∉ [0x26, 0x27] → t.res1 = s.res1)

/-- R34: every completion replaces STATUS; the unchecked and the saturating commands always write SUCCESS;
and no value of STATUS (nor of VALID) changes how a later command executes. -/
def Obligations.StatusIsNotStickyAndNotRead : Prop :=
  (∀ (i : Instr) (s : State) (st : Status) (v : Bool),
    exec i { s with status := st, valid := v } = exec i s) ∧
  (∀ (i : Instr) (s : State), i.checked = false → ∃ t, exec i s = .next t ∧ t.status = .success)

/-- R86, R87: what a command does not read has no effect on it: a presented field whose select bit is set,
B of a unary command, B[127:7] of the rotates, and the high words of MULW's operands. It speaks of the
command's effect; whether LAT may depend on those bits is left free (assumption 2, DESIGN CHOICE). -/
def Obligations.UnreadBitsHaveNoEffect : Prop :=
  (∀ (i j : Instr) (s : State), i.func = j.func → s.operandA i.srcA = s.operandA j.srcA →
    i.unary = true ∨ s.operandB i.srcB = s.operandB j.srcB → exec i s = exec j s) ∧
  (∀ (a b b' : Source) (s : State),
    (s.operandB b).extractLsb' 0 7 = (s.operandB b').extractLsb' 0 7 →
    exec (.rol a b) s = exec (.rol a b') s ∧ exec (.ror a b) s = exec (.ror a b') s) ∧
  ∀ (a a' b b' : Source) (s : State),
    (s.operandA a).extractLsb' 0 64 = (s.operandA a').extractLsb' 0 64 →
    (s.operandB b).extractLsb' 0 64 = (s.operandB b').extractLsb' 0 64 →
    exec (.mulw a b) s = exec (.mulw a' b') s

/-- R64: a command with ASEL = 0 and BSEL = 0 has results that depend on its fields alone, and presenting it
again changes nothing. -/
def Obligations.UnselectedCommandIsIdempotent : Prop :=
  ∀ (i : Instr) (s s' t t' : State), i.srcA.sel = false → i.srcB.sel = false →
    exec i s = .next t → exec i s' = .next t' →
    t.res0 = t'.res0 ∧ t.status = t'.status ∧ (i.writesRes1 = true → t.res1 = t'.res1) ∧
      exec i t = .next t

/-- R70: an edge of one instance changes no other instance, and does to it what it would do alone. That a
system is a list of states, of which an edge steps one alone, is the model's choice (assumption 12, DESIGN
CHOICE): the statement speaks of `System.stepAt`. -/
def Obligations.InstancesShareNothing : Prop :=
  ∀ (sys sys' : System) (k : Nat), System.stepAt k sys = .next sys' →
    (∀ j, j ≠ k → sys'[j]? = sys[j]?) ∧
    ∀ s, sys[k]? = some s → ∃ t, step s = .next t ∧ sys'[k]? = some t

/-! ### Adder and comparator -/

/-- R100. -/
def Obligations.PassCopiesBothOperands : Prop :=
  ∀ (a b : Source) (s : State), decodeFunc 0x00#6 a b = .ok (.pass a b) ∧
    exec (.pass a b) s = .next { s with
      res0 := s.operandA a, res1 := s.operandB b, status := .success, valid := true, pending := none }

/-- R101: the dual-word sum, which is the wrapped sum of both readings. -/
def Obligations.AddIsWrappedSum : Prop :=
  ∀ (a b : Source) (s : State),
    let x := s.operandA a
    let y := s.operandB b
    let lo := w64 (uVal (x.extractLsb' 0 64) + uVal (y.extractLsb' 0 64))
    let c : Int := if uVal lo < uVal (x.extractLsb' 0 64) then 1 else 0
    let hi := w64 (uVal (x.extractLsb' 64 64) + uVal (y.extractLsb' 64 64) + c)
    decodeFunc 0x01#6 a b = .ok (.add a b) ∧
    exec (.add a b) s = .next { s with
      res0 := w128 (uVal x + uVal y), status := .success, valid := true, pending := none } ∧
    w128 (uVal x + uVal y) = hi ++ lo ∧ w128 (uVal x + uVal y) = w128 (sVal x + sVal y)

/-- R102: the dual-word difference, which is the wrapped difference of both readings. -/
def Obligations.SubIsWrappedDifference : Prop :=
  ∀ (a b : Source) (s : State),
    let x := s.operandA a
    let y := s.operandB b
    let lo := w64 (uVal (x.extractLsb' 0 64) - uVal (y.extractLsb' 0 64))
    let bw : Int := if uVal (x.extractLsb' 0 64) < uVal (y.extractLsb' 0 64) then 1 else 0
    let hi := w64 (uVal (x.extractLsb' 64 64) - uVal (y.extractLsb' 64 64) - bw)
    decodeFunc 0x02#6 a b = .ok (.sub a b) ∧
    exec (.sub a b) s = .next { s with
      res0 := w128 (uVal x - uVal y), status := .success, valid := true, pending := none } ∧
    w128 (uVal x - uVal y) = hi ++ lo ∧ w128 (uVal x - uVal y) = w128 (sVal x - sVal y)

/-- R103: complement and increment, which is the wrapped negative of both readings. -/
def Obligations.NegIsWrappedNegative : Prop :=
  ∀ (a b : Source) (s : State),
    let x := s.operandA a
    decodeFunc 0x03#6 a b = .ok (.neg a b) ∧
    exec (.neg a b) s = .next { s with
      res0 := w128 (-uVal x), status := .success, valid := true, pending := none } ∧
    w128 (-uVal x) = w128 (uVal (~~~x) + 1) ∧ w128 (-uVal x) = w128 (-sVal x)

/-- R104: the unsigned comparison, and the document's word by word method. -/
def Obligations.CmpuOrdersUnsigned : Prop :=
  ∀ (a b : Source) (s : State),
    let x := s.operandA a
    let y := s.operandB b
    decodeFunc 0x04#6 a b = .ok (.cmpu a b) ∧
    exec (.cmpu a b) s = .next { s with
      res0 := compareUnsignedWords x y, status := .success, valid := true, pending := none } ∧
    compareUnsignedWords x y =
      if uVal x < uVal y then w128 (-1) else if uVal x = uVal y then w128 0 else w128 1

/-- R105: the signed comparison, and the document's method: the high words signed, the low words as an
unsigned tie-break. -/
def Obligations.CmpsOrdersSigned : Prop :=
  ∀ (a b : Source) (s : State),
    let x := s.operandA a
    let y := s.operandB b
    decodeFunc 0x05#6 a b = .ok (.cmps a b) ∧
    exec (.cmps a b) s = .next { s with
      res0 := compareSignedWords x y, status := .success, valid := true, pending := none } ∧
    compareSignedWords x y =
      if sVal x < sVal y then w128 (-1) else if sVal x = sVal y then w128 0 else w128 1

/-- R106: the adder's laws, on the functions ADD, SUB and NEG write. -/
def Obligations.AdderLaws : Prop :=
  ∀ a b : Word, subWords (addWords a b) b = a ∧ addWords (subWords a b) b = a ∧
    addWords a b = addWords b a ∧ negWord a = subWords 0 a ∧
    addWords a b = w128 (sVal a + sVal b) ∧ subWords a b = w128 (sVal a - sVal b)

/-! ### Multiplier -/

/-- R120, R122: the wrapped product of both readings, and the document's construction from words. -/
def Obligations.MulIsWrappedProduct : Prop :=
  ∀ (a b : Source) (s : State),
    let x := s.operandA a
    let y := s.operandB b
    decodeFunc 0x08#6 a b = .ok (.mul a b) ∧
    exec (.mul a b) s = .next { s with
      res0 := w128 (uVal x * uVal y), status := .success, valid := true, pending := none } ∧
    w128 (uVal x * uVal y) = w128 (sVal x * sVal y) ∧ w128 (uVal x * uVal y) = mulFromWords x y

/-- R121: the full product of the low words, which never wraps, and the document's construction from four
cross products. -/
def Obligations.MulwIsFullProduct : Prop :=
  ∀ (a b : Source) (s : State),
    let x := (s.operandA a).extractLsb' 0 64
    let y := (s.operandB b).extractLsb' 0 64
    ∃ r : Word, decodeFunc 0x09#6 a b = .ok (.mulw a b) ∧
      exec (.mulw a b) s = .next { s with
        res0 := r, status := .success, valid := true, pending := none } ∧
      uVal r = uVal x * uVal y ∧ r = mulFromHalves x y

/-! ### Shifter and rotator -/

/-- R130: every amount gives `w(u(A) · 2^k)`, 0 from 128 on, and the words cross as the rule says. -/
def Obligations.ShlMultipliesByPowerOfTwo : Prop :=
  ∀ (a b : Source) (s : State),
    let x := s.operandA a
    let k := (s.operandB b).toNat
    ∃ r : Word, decodeFunc 0x10#6 a b = .ok (.shl a b) ∧
      exec (.shl a b) s = .next { s with
        res0 := r, status := .success, valid := true, pending := none } ∧
      r = w128 (uVal x * 2 ^ k) ∧ (k = 0 → r = x) ∧ (128 ≤ k → r = 0) ∧
      (0 < k → k < 64 → lowWord r = w64 (uVal (lowWord x) * 2 ^ k) ∧
        highWord r = w64 (uVal (highWord x) * 2 ^ k + uVal (lowWord x) / 2 ^ (64 - k))) ∧
      (64 ≤ k → k < 128 → highWord r = w64 (uVal (lowWord x) * 2 ^ (k - 64)) ∧ lowWord r = 0)

/-- R131: every amount gives `u(A) div 2^k`, 0 from 128 on. -/
def Obligations.ShruDividesByPowerOfTwo : Prop :=
  ∀ (a b : Source) (s : State),
    let x := s.operandA a
    let k := (s.operandB b).toNat
    ∃ r : Word, decodeFunc 0x11#6 a b = .ok (.shru a b) ∧
      exec (.shru a b) s = .next { s with
        res0 := r, status := .success, valid := true, pending := none } ∧
      uVal r = uVal x / 2 ^ k ∧ (128 ≤ k → r = 0) ∧
      (64 ≤ k → k < 128 → lowWord r = highWord x >>> (k - 64) ∧ highWord r = 0)

/-- R132: every amount gives `floor(s(A) / 2^k)`, so the saturation agrees with the formula. -/
def Obligations.ShrsFloorsSignedQuotient : Prop :=
  ∀ (a b : Source) (s : State),
    let x := s.operandA a
    let k := (s.operandB b).toNat
    ∃ r : Word, decodeFunc 0x12#6 a b = .ok (.shrs a b) ∧
      exec (.shrs a b) s = .next { s with
        res0 := r, status := .success, valid := true, pending := none } ∧
      sVal r = Int.floor ((sVal x : Rat) / 2 ^ k) ∧
      (128 ≤ k → r = if x.getLsbD 127 then ONES else 0)

/-- R133: bit `i` of A goes to bit `(i + n) mod 128`, with `n = u(B) mod 128`. -/
def Obligations.RolMovesEveryBitLeft : Prop :=
  ∀ (a b : Source) (s : State),
    let x := s.operandA a
    let n := (s.operandB b).toNat % 128
    ∃ r : Word, decodeFunc 0x13#6 a b = .ok (.rol a b) ∧
      exec (.rol a b) s = .next { s with
        res0 := r, status := .success, valid := true, pending := none } ∧
      r = (x <<< n ||| x >>> (128 - n)) ∧
      ∀ i, i < 128 → r.getLsbD ((i + n) % 128) = x.getLsbD i

/-- R134: bit `i` of the result is bit `(i + n) mod 128` of A. -/
def Obligations.RorMovesEveryBitRight : Prop :=
  ∀ (a b : Source) (s : State),
    let x := s.operandA a
    let n := (s.operandB b).toNat % 128
    ∃ r : Word, decodeFunc 0x14#6 a b = .ok (.ror a b) ∧
      exec (.ror a b) s = .next { s with
        res0 := r, status := .success, valid := true, pending := none } ∧
      r = (x >>> n ||| x <<< (128 - n)) ∧
      ∀ i, i < 128 → r.getLsbD i = x.getLsbD ((i + n) % 128)

/-- R135, its first three laws: a rotation is undone by the opposite one, a left rotation is a right one by
the rest, and shifts by less than 128 are products and quotients. -/
def Obligations.ShiftAndRotateLaws : Prop :=
  (∀ a b : Word, rotateRightBy (rotateLeftBy a (rotateAmount b)) (rotateAmount b) = a) ∧
  (∀ (a : Word) (n : Nat), n < 128 → rotateLeftBy a n = rotateRightBy a ((128 - n) % 128)) ∧
  ∀ (a : Word) (k : Nat), k < 128 →
    shiftLeft a k = mulWord a (w128 (2 ^ k)) ∧
    shiftRightLogical a k = (divUnsigned a (w128 (2 ^ k))).1

/-! ### Divider -/

/-- R150, R153. -/
def Obligations.DivuQuotientAndRemainder : Prop :=
  ∀ (a b : Source) (s : State),
    let x := s.operandA a
    let y := s.operandB b
    ∃ q r : Word, decodeFunc 0x0C#6 a b = .ok (.divu a b) ∧
      exec (.divu a b) s = .next { s with
        res0 := q, res1 := r, status := .success, valid := true, pending := none } ∧
      (uVal y = 0 → q = 0 ∧ r = 0) ∧
      (uVal y ≠ 0 → uVal q = uVal x / uVal y ∧ uVal r = uVal x % uVal y)

/-- R151, R153: the quotient truncated toward zero and its remainder, in wrapped form; SMIN / -1 gives
(SMIN, 0). -/
def Obligations.DivsTruncatesTowardZero : Prop :=
  ∀ (a b : Source) (s : State),
    let x := s.operandA a
    let y := s.operandB b
    ∃ q r : Word, decodeFunc 0x0D#6 a b = .ok (.divs a b) ∧
      exec (.divs a b) s = .next { s with
        res0 := q, res1 := r, status := .success, valid := true, pending := none } ∧
      (uVal y = 0 → q = 0 ∧ r = 0) ∧
      (uVal y ≠ 0 → q = w128 (tdiv (sVal x) (sVal y)) ∧ r = w128 (trem (sVal x) (sVal y))) ∧
      (sVal x = SMIN → sVal y = -1 → sVal q = SMIN ∧ r = 0)

/-- R152: the division laws, unsigned and signed. -/
def Obligations.DivisionLaws : Prop :=
  ∀ (a b : Source) (s tu ts : State),
    let x := s.operandA a
    let y := s.operandB b
    uVal y ≠ 0 → exec (.divu a b) s = .next tu → exec (.divs a b) s = .next ts →
    (uVal y * uVal tu.res0 + uVal tu.res1 = uVal x ∧ 0 ≤ uVal tu.res1 ∧ uVal tu.res1 < uVal y) ∧
    w128 (sVal y * sVal ts.res0 + sVal ts.res1) = x ∧
    (sVal ts.res1).natAbs < (sVal y).natAbs ∧
    (sVal ts.res1 = 0 ∨ (sVal ts.res1).sign = (sVal x).sign) ∧
    (¬ (sVal x = SMIN ∧ sVal y = -1) → sVal y * sVal ts.res0 + sVal ts.res1 = sVal x) ∧
    (sVal x = SMIN → sVal y = -1 → sVal ts.res0 = SMIN)

/-- R154: binary long division gives exactly the divider's results; on magnitudes, with the signs reapplied,
it gives the signed divider's (R151). -/
def Obligations.LongDivisionRefinesDivider : Prop :=
  ∀ n d : Word, uVal d ≠ 0 → divuLong n d = divUnsigned n d ∧ divsLong n d = divSigned n d

/-- R155: the fast paths' results, on the unsigned divider. -/
def Obligations.DivisionFastPaths : Prop :=
  ∀ n d : Word,
    (uVal n < uVal d → divUnsigned n d = (0, n)) ∧
    (n = d → uVal d ≠ 0 → divUnsigned n d = (1, 0)) ∧
    (d = 1 → divUnsigned n d = (n, 0)) ∧
    ∀ j, j < 128 → d = w128 (2 ^ j) → divUnsigned n d = (n >>> j, n &&& w128 (2 ^ j - 1))

/-! ### Bit counter -/

/-- R170: the set bits of A, which are those of its two words; with those of the complement, 128 (R178). -/
def Obligations.PopcntCountsSetBits : Prop :=
  ∀ (a b : Source) (s : State),
    let x := s.operandA a
    decodeFunc 0x18#6 a b = .ok (.popcnt a b) ∧
    exec (.popcnt a b) s = .next { s with
      res0 := w128 (popcount64 (highWord x) + popcount64 (lowWord x) : Nat)
      status := .success, valid := true, pending := none } ∧
    popcount64 (highWord x) + popcount64 (lowWord x) = popcount x ∧
    popcount x + popcount (~~~x) = 128

/-- R171, R173: the leading zeros of A for CLZ and of ~A for CLO. The document's word by word method counts
them, and the count is the number of clear bits above the highest set one. -/
def Obligations.ClzAndCloCountLeadingBits : Prop :=
  (∀ (a b : Source) (s : State),
    decodeFunc 0x19#6 a b = .ok (.clz a b) ∧ decodeFunc 0x1B#6 a b = .ok (.clo a b) ∧
    exec (.clz a b) s = .next { s with
      res0 := w128 (clzByWords (s.operandA a)), status := .success, valid := true, pending := none } ∧
    exec (.clo a b) s = .next { s with
      res0 := w128 (clzByWords (~~~(s.operandA a)))
      status := .success, valid := true, pending := none }) ∧
  ∀ v : Word, (v = 0 → clzByWords v = 128) ∧
    (v ≠ 0 → clzByWords v ≤ 127 ∧ v.getLsbD (127 - clzByWords v) = true ∧
      ∀ i, 127 - clzByWords v < i → v.getLsbD i = false)

/-- R172, R174: the trailing zeros of A for CTZ and of ~A for CTO, counted as the document does. -/
def Obligations.CtzAndCtoCountTrailingBits : Prop :=
  (∀ (a b : Source) (s : State),
    decodeFunc 0x1A#6 a b = .ok (.ctz a b) ∧ decodeFunc 0x1C#6 a b = .ok (.cto a b) ∧
    exec (.ctz a b) s = .next { s with
      res0 := w128 (ctzByWords (s.operandA a)), status := .success, valid := true, pending := none } ∧
    exec (.cto a b) s = .next { s with
      res0 := w128 (ctzByWords (~~~(s.operandA a)))
      status := .success, valid := true, pending := none }) ∧
  ∀ v : Word, (v = 0 → ctzByWords v = 128) ∧
    (v ≠ 0 → ctzByWords v ≤ 127 ∧ v.getLsbD (ctzByWords v) = true ∧
      ∀ i, i < ctzByWords v → v.getLsbD i = false)

/-- R175: the smallest number of bits that holds u(A), which is 128 less the leading zeros. -/
def Obligations.BitwidthHoldsTheValue : Prop :=
  ∀ (a b : Source) (s : State),
    let x := s.operandA a
    ∃ n : Nat, decodeFunc 0x1D#6 a b = .ok (.bitwidth a b) ∧
      exec (.bitwidth a b) s = .next { s with
        res0 := w128 n, status := .success, valid := true, pending := none } ∧
      n ≤ 128 ∧ (x = 0 → n = 0) ∧ (x ≠ 0 → 2 ^ (n - 1) ≤ uVal x ∧ 0 < n) ∧ uVal x < 2 ^ n ∧
      (n : Int) = 128 - uVal (countLeadingZeros x)

/-- R176, R177: the position of the lowest and of the highest set bit; the pattern of -1 for zero. -/
def Obligations.FfsAndFlsFindSetBits : Prop :=
  ∀ (a b : Source) (s : State),
    let x := s.operandA a
    ∃ p q : Int, decodeFunc 0x1E#6 a b = .ok (.ffs a b) ∧ decodeFunc 0x1F#6 a b = .ok (.fls a b) ∧
      exec (.ffs a b) s = .next { s with
        res0 := w128 p, status := .success, valid := true, pending := none } ∧
      exec (.fls a b) s = .next { s with
        res0 := w128 q, status := .success, valid := true, pending := none } ∧
      (x = 0 → p = -1 ∧ q = -1) ∧
      (x ≠ 0 → 0 ≤ p ∧ p ≤ q ∧ q ≤ 127 ∧
        x.getLsbD p.toNat = true ∧ x.getLsbD q.toNat = true ∧
        ∀ i : Nat, x.getLsbD i = true → p ≤ i ∧ i ≤ q)

/-- R178: the counter laws between the commands' results, and the agreement with the counts of the low
word when the high word is zero. -/
def Obligations.CounterLaws : Prop :=
  ∀ v : Word,
    uVal (zextCount (popcount v)) + uVal (zextCount (popcount (~~~v))) = 128 ∧
    uVal (countLeadingZeros v) + uVal (bitWidthOf v) = 128 ∧
    (highWord v = 0 → v ≠ 0 →
      popcount v = popcount64 (lowWord v) ∧
      countTrailingZeros v = w128 (ctz64 (lowWord v)) ∧
      bitWidthOf v = w128 (64 - clz64 (lowWord v)) ∧
      findFirstSet v = w128 (ctz64 (lowWord v)) ∧
      findLastSet v = w128 (63 - clz64 (lowWord v)) ∧
      countLeadingZeros v = w128 (64 + clz64 (lowWord v)))

/-! ### Overflow detector -/

/-- R191, R193, R195 with R190 and R203: the unsigned checked commands write the exact result and SUCCESS
when it is in range, and otherwise 0 and the code; the document's pre-checks predict which. -/
def Obligations.UnsignedCheckedCommands : Prop :=
  ∀ (a b : Source) (s : State),
    let x := s.operandA a
    let y := s.operandB b
    (decodeFunc 0x20#6 a b = .ok (.caddu a b) ∧
      exec (.caddu a b) s = .next { s with
        res0 := if uVal x > UMAX - uVal y then 0 else w128 (uVal x + uVal y)
        status := if uVal x + uVal y > UMAX then .overflow else .success
        valid := true, pending := none } ∧
      (uVal x > UMAX - uVal y ↔ uVal x + uVal y > UMAX)) ∧
    (decodeFunc 0x22#6 a b = .ok (.csubu a b) ∧
      exec (.csubu a b) s = .next { s with
        res0 := if uVal x < uVal y then 0 else w128 (uVal x - uVal y)
        status := if uVal x - uVal y < 0 then .underflow else .success
        valid := true, pending := none } ∧
      (uVal x < uVal y ↔ uVal x - uVal y < 0)) ∧
    decodeFunc 0x24#6 a b = .ok (.cmulu a b) ∧
      exec (.cmulu a b) s = .next { s with
        res0 := if uVal y ≠ 0 ∧ uVal x > UMAX / uVal y then 0 else w128 (uVal x * uVal y)
        status := if uVal x * uVal y > UMAX then .overflow else .success
        valid := true, pending := none } ∧
      (uVal y ≠ 0 ∧ uVal x > UMAX / uVal y ↔ uVal x * uVal y > UMAX)

/-- R192, R194, R196 with R190: the signed checked commands: OVERFLOW above SMAX, UNDERFLOW below SMIN,
RES0 = 0 in both cases, and otherwise SUCCESS and a pattern that reads as the exact result. -/
def Obligations.SignedCheckedCommands : Prop :=
  ∀ (a b : Source) (s : State),
    let x := s.operandA a
    let y := s.operandB b
    let report : Int → State := fun exact => { s with
      res0 := if exact > SMAX ∨ exact < SMIN then 0 else w128 exact
      status := if exact > SMAX then .overflow else if exact < SMIN then .underflow else .success
      valid := true, pending := none }
    decodeFunc 0x21#6 a b = .ok (.cadds a b) ∧ decodeFunc 0x23#6 a b = .ok (.csubs a b) ∧
    decodeFunc 0x25#6 a b = .ok (.cmuls a b) ∧
    exec (.cadds a b) s = .next (report (sVal x + sVal y)) ∧
    exec (.csubs a b) s = .next (report (sVal x - sVal y)) ∧
    exec (.cmuls a b) s = .next (report (sVal x * sVal y)) ∧
    ∀ exact, SMIN ≤ exact → exact ≤ SMAX → sVal (w128 exact) = exact

/-- R197, R198: the checked divisions: INVALID_INPUT for a zero divisor, OVERFLOW for the signed SMIN / -1,
zeros in both registers in these cases, and otherwise the results of DIVU and DIVS. -/
def Obligations.CheckedDivisions : Prop :=
  ∀ (a b : Source) (s : State),
    let x := s.operandA a
    let y := s.operandB b
    decodeFunc 0x26#6 a b = .ok (.cdivu a b) ∧ decodeFunc 0x27#6 a b = .ok (.cdivs a b) ∧
    (uVal y = 0 →
      exec (.cdivu a b) s = .next { s with
        res0 := 0, res1 := 0, status := .invalidInput, valid := true, pending := none } ∧
      exec (.cdivs a b) s = .next { s with
        res0 := 0, res1 := 0, status := .invalidInput, valid := true, pending := none }) ∧
    (uVal y ≠ 0 →
      exec (.cdivu a b) s = .next { s with
        res0 := w128 (uVal x / uVal y), res1 := w128 (uVal x % uVal y), status := .success
        valid := true, pending := none } ∧
      exec (.cdivu a b) s = exec (.divu a b) s) ∧
    (sVal x = SMIN → sVal y = -1 →
      exec (.cdivs a b) s = .next { s with
        res0 := 0, res1 := 0, status := .overflow, valid := true, pending := none }) ∧
    (uVal y ≠ 0 → ¬ (sVal x = SMIN ∧ sVal y = -1) →
      exec (.cdivs a b) s = .next { s with
        res0 := w128 (tdiv (sVal x) (sVal y)), res1 := w128 (trem (sVal x) (sVal y)), status := .success
        valid := true, pending := none } ∧
      exec (.cdivs a b) s = exec (.divs a b) s ∧
      SMIN ≤ tdiv (sVal x) (sVal y) ∧ tdiv (sVal x) (sVal y) ≤ SMAX)

/-- R199 to R202: the saturating commands write the exact result clamped to the range, and SUCCESS. -/
def Obligations.SaturatingCommandsClamp : Prop :=
  ∀ (a b : Source) (s : State),
    let x := s.operandA a
    let y := s.operandB b
    let done : Word → State := fun r =>
      { s with res0 := r, status := .success, valid := true, pending := none }
    ∃ au as su ss : Word,
      decodeFunc 0x28#6 a b = .ok (.sataddu a b) ∧ decodeFunc 0x29#6 a b = .ok (.satadds a b) ∧
      decodeFunc 0x2A#6 a b = .ok (.satsubu a b) ∧ decodeFunc 0x2B#6 a b = .ok (.satsubs a b) ∧
      exec (.sataddu a b) s = .next (done au) ∧ exec (.satadds a b) s = .next (done as) ∧
      exec (.satsubu a b) s = .next (done su) ∧ exec (.satsubs a b) s = .next (done ss) ∧
      uVal au = min (uVal x + uVal y) UMAX ∧
      sVal as = min (max (sVal x + sVal y) SMIN) SMAX ∧
      uVal su = max (uVal x - uVal y) 0 ∧
      sVal ss = min (max (sVal x - sVal y) SMIN) SMAX

/-- R204: the detector's laws. A checked command that reports SUCCESS writes what its unchecked counterpart
writes. CADDU overflows exactly when the unchecked sum carries out of bit 127; CADDS leaves the range exactly
when the operands' signs agree and the wrapped sum's sign differs. A saturating command gives the unchecked
result exactly when the matching checked command reports SUCCESS. -/
def Obligations.DetectorLaws : Prop :=
  ∀ (a b : Source) (s : State),
    (∀ c u : Instr, (c, u) ∈ [(Instr.caddu a b, Instr.add a b), (.cadds a b, .add a b),
        (.csubu a b, .sub a b), (.csubs a b, .sub a b), (.cmulu a b, .mul a b), (.cmuls a b, .mul a b),
        (.cdivu a b, .divu a b), (.cdivs a b, .divs a b)] →
      ∀ tc tu, exec c s = .next tc → exec u s = .next tu → tc.status = .success →
        tc.res0 = tu.res0 ∧ tc.res1 = tu.res1) ∧
    (∀ t, exec (.caddu a b) s = .next t →
      (t.status = .overflow ↔ 2 ^ 128 ≤ uVal (s.operandA a) + uVal (s.operandB b))) ∧
    (∀ t tu, exec (.cadds a b) s = .next t → exec (.add a b) s = .next tu →
      (t.status ≠ .success ↔
        (s.operandA a).getLsbD 127 = (s.operandB b).getLsbD 127 ∧
          tu.res0.getLsbD 127 ≠ (s.operandA a).getLsbD 127)) ∧
    ∀ z c u : Instr, (z, c, u) ∈ [(Instr.sataddu a b, Instr.caddu a b, Instr.add a b),
        (.satadds a b, .cadds a b, .add a b), (.satsubu a b, .csubu a b, .sub a b),
        (.satsubs a b, .csubs a b, .sub a b)] →
      ∀ tz tc tu, exec z s = .next tz → exec c s = .next tc → exec u s = .next tu →
        (tz.res0 = tu.res0 ↔ tc.status = .success)

/-! ### Layout, pseudo-instructions, assembler -/

/-- R61, R62: the 16-byte layout, its mixed-width views, and that it loses nothing. -/
def Obligations.SixteenByteLayout : Prop :=
  ∀ v : Word, (toBytes v).length = 16 ∧
    (∀ k, k < 16 → (toBytes v)[k]? = some (v.extractLsb' (8 * k) 8)) ∧
    ofBytes (toBytes v) = v ∧
    readBytes (toBytes v) 0 8 = (lowWord v).toNat ∧
    readBytes (toBytes v) 8 8 = (highWord v).toNat ∧
    ∀ j, j < 4 → readBytes (toBytes v) (4 * j) 4 = (v.extractLsb' (32 * j) 32).toNat

/-- R94: the commands each pseudo-instruction expands to, and what they leave when they are run one after
another. -/
def Obligations.PseudoInstructionEffects : Prop :=
  ∀ (a b : Source) (s : State),
    let x := s.operandA a
    let done : Word → Word → State := fun r0 r1 =>
      { s with res0 := r0, res1 := r1, status := .success, valid := true, pending := none }
    (Pseudo.expand .nop = [.pass .res .res] ∧
      Pseudo.expand (.mov a) = [.pass a .res] ∧
      Pseudo.expand (.movb b) = [.pass .res b] ∧
      Pseudo.expand .clr = [.pass (.lit 0) (.lit 0)] ∧
      Pseudo.expand (.inc a) = [.add a (.lit 1)] ∧
      Pseudo.expand (.dec a) = [.sub a (.lit 1)] ∧
      Pseudo.expand (.not a) = [.neg a (.lit 0), .sub .res (.lit 1)] ∧
      Pseudo.expand (.swapw a) = [.rol a (.lit 64)] ∧
      Pseudo.expand (.cmpz a) = [.cmpu a (.lit 0)]) ∧
    runCommands (Pseudo.expand .nop) s = .next (done s.res0 s.res1) ∧
    runCommands (Pseudo.expand (.mov a)) s = .next (done x s.res1) ∧
    runCommands (Pseudo.expand (.movb b)) s = .next (done s.res0 (s.operandB b)) ∧
    runCommands (Pseudo.expand .clr) s = .next (done 0 0) ∧
    runCommands (Pseudo.expand (.inc a)) s = .next (done (x + 1) s.res1) ∧
    runCommands (Pseudo.expand (.dec a)) s = .next (done (x - 1) s.res1) ∧
    runCommands (Pseudo.expand (.not a)) s = .next (done (~~~x) s.res1) ∧
    runCommands (Pseudo.expand (.swapw a)) s =
      .next (done (x.extractLsb' 0 64 ++ x.extractLsb' 64 64) s.res1) ∧
    runCommands (Pseudo.expand (.cmpz a)) s = .next (done (if x = 0 then 0 else 1) s.res1)

/-- R92, R93, R95: the assembler gives back every command it can spell from the disassembler's text of it
(assumptions 9 and 10 for the forms of text, which are the model's choice). -/
def Obligations.AssembleOfDisassemble : Prop :=
  ∀ i : Instr, i.wellFormed = true → assembleText (disassemble (encode i)) = .ok [encode i]
end

