-- ==== Sys2Proof/Laws/Words.lean ====
section
/-! SUPPORT. The readings of a bit pattern, and one spec lemma for each function on words that the
meanings call: what it computes, in closed form. -/

namespace Sys2Proof.Machine

/-! ### `u`, `s` and `w` -/

theorem uVal_nonneg {n : Nat} (v : BitVec n) : 0 ≤ uVal v := Int.natCast_nonneg _

theorem uVal_lt (v : Word) : uVal v < 2 ^ 128 := by
  have := v.isLt
  simp only [uVal]
  omega

theorem uVal_le_UMAX (v : Word) : uVal v ≤ UMAX := by
  have := uVal_lt v
  simp only [UMAX]
  omega

theorem uVal_lt64 (v : BitVec 64) : uVal v < 2 ^ 64 := by
  have := v.isLt
  simp only [uVal]
  omega

theorem sVal_bounds (v : Word) : SMIN ≤ sVal v ∧ sVal v ≤ SMAX := by
  have h1 := BitVec.le_toInt v
  have h2 := BitVec.toInt_lt (x := v)
  simp only [sVal, SMIN, SMAX]
  norm_num at *
  omega

theorem sVal_eq (v : Word) : sVal v = if uVal v < 2 ^ 127 then uVal v else uVal v - 2 ^ 128 := by
  have hu : uVal v = v.toNat := rfl
  have hs : sVal v = if 2 * v.toNat < 2 ^ 128 then (v.toNat : Int) else v.toNat - 2 ^ 128 := rfl
  rw [hs]
  split <;> split <;> omega

theorem uVal_inj {n : Nat} {v x : BitVec n} : uVal v = uVal x ↔ v = x := by
  simp only [uVal, Int.natCast_inj, BitVec.toNat_inj]

theorem sVal_inj {v x : Word} : sVal v = sVal x ↔ v = x := BitVec.toInt_inj

theorem uVal_w128 (n : Int) : uVal (w128 n) = n % 2 ^ 128 := by
  simp only [uVal, w128, BitVec.toNat_ofInt]
  omega

theorem uVal_w64 (n : Int) : uVal (w64 n) = n % 2 ^ 64 := by
  simp only [uVal, w64, BitVec.toNat_ofInt]
  omega

theorem uVal_w128_of_range {n : Int} (h0 : 0 ≤ n) (h1 : n ≤ UMAX) : uVal (w128 n) = n := by
  rw [uVal_w128]
  simp only [UMAX] at h1
  omega

theorem sVal_w128_of_range {n : Int} (h0 : SMIN ≤ n) (h1 : n ≤ SMAX) : sVal (w128 n) = n := by
  rw [sVal_eq, uVal_w128]
  simp only [SMIN, SMAX] at h0 h1
  split <;> omega

/-- Two integers give one pattern exactly when they agree modulo 2^128. -/
theorem w128_eq_iff {m n : Int} : w128 m = w128 n ↔ m % 2 ^ 128 = n % 2 ^ 128 := by
  rw [← uVal_inj, uVal_w128, uVal_w128]

theorem w128_uVal (v : Word) : w128 (uVal v) = v := by
  rw [← uVal_inj, uVal_w128]
  have := uVal_nonneg v
  have := uVal_lt v
  omega

theorem sVal_emod (v : Word) : sVal v % 2 ^ 128 = uVal v := by
  have := uVal_nonneg v
  have := uVal_lt v
  rw [sVal_eq]
  split <;> omega

theorem w128_sVal (v : Word) : w128 (sVal v) = v := by
  rw [← uVal_inj, uVal_w128, sVal_emod]

theorem ONES_eq : ONES = w128 (-1) := by decide

/-! ### Words of a value -/

theorem uVal_highWord (v : Word) : uVal (highWord v) = uVal v / 2 ^ 64 := by
  have := v.isLt
  simp only [uVal, highWord, BitVec.extractLsb'_toNat, Nat.shiftRight_eq_div_pow]
  omega

theorem uVal_lowWord (v : Word) : uVal (lowWord v) = uVal v % 2 ^ 64 := by
  simp only [uVal, lowWord, BitVec.extractLsb'_toNat, Nat.shiftRight_zero]
  omega

theorem uVal_append (hi lo : BitVec 64) : uVal (hi ++ lo : Word) = uVal hi * 2 ^ 64 + uVal lo := by
  have h := BitVec.toNat_append hi lo
  have := lo.isLt
  rw [Nat.shiftLeft_eq, Nat.mul_comm, ← Nat.two_pow_add_eq_or_of_lt lo.isLt] at h
  simp only [uVal]
  omega

theorem uVal_not (v : Word) : uVal (~~~v) = 2 ^ 128 - 1 - uVal v := by
  have := v.isLt
  simp only [uVal, BitVec.toNat_not]
  omega

/-! ### The adder and comparator -/

/-- The dual-word sum is the wrapped sum. -/
theorem addWords_eq (a b : Word) : addWords a b = w128 (uVal a + uVal b) := by
  have ha := uVal_nonneg a
  have hb := uVal_nonneg b
  rw [← uVal_inj, uVal_w128]
  simp only [addWords, uVal_append, uVal_w64, uVal_lowWord, uVal_highWord]
  split <;> omega

/-- The dual-word difference is the wrapped difference. -/
theorem subWords_eq (a b : Word) : subWords a b = w128 (uVal a - uVal b) := by
  have ha := uVal_nonneg a
  have hb := uVal_nonneg b
  rw [← uVal_inj, uVal_w128]
  simp only [subWords, uVal_append, uVal_w64, uVal_lowWord, uVal_highWord]
  split <;> omega

/-- Complement and increment is the wrapped negative. -/
theorem negWord_eq (a : Word) : negWord a = w128 (-uVal a) := by
  rw [negWord, w128_eq_iff, uVal_not]
  omega

/-- The sum is that of the signed readings too. -/
theorem addWords_eq_signed (x y : Word) : addWords x y = w128 (sVal x + sVal y) := by
  have h1 := sVal_emod x
  have h2 := sVal_emod y
  rw [addWords_eq, w128_eq_iff]; omega

/-- The difference is that of the signed readings too. -/
theorem subWords_eq_signed (x y : Word) : subWords x y = w128 (sVal x - sVal y) := by
  have h1 := sVal_emod x
  have h2 := sVal_emod y
  rw [subWords_eq, w128_eq_iff]; omega

/-- The product is that of the signed readings too (R122). -/
theorem w128_mul_signed (x y : Word) : w128 (uVal x * uVal y) = w128 (sVal x * sVal y) := by
  rw [w128_eq_iff, Int.mul_emod (sVal x), sVal_emod, sVal_emod]

end Sys2Proof.Machine
end

