-- ==== Sys2Proof/Laws/BitCount.lean ====
section
/-! SUPPORT. The bit counter: what `popcount`, `lsb`, `msb` and the counts of one word are, bit by bit. -/

namespace Sys2Proof.Machine

/-- The bits of the low word. -/
theorem lowWord_bit (v : Word) (i : Nat) (h : i < 64) : (lowWord v).getLsbD i = v.getLsbD i := by
  simp [lowWord, h]

/-- The bits of the high word. -/
theorem highWord_bit (v : Word) (i : Nat) (h : i < 64) : (highWord v).getLsbD i = v.getLsbD (64+i) := by
  simp [highWord, h]

/-- The set bits of a value are those of its two words (R170). -/
theorem popcount_by_words (v : Word) :
    popcount64 (highWord v) + popcount64 (lowWord v) = popcount v := by
  unfold popcount popcount64
  have : List.range 128 = List.range 64 ++ (List.range 64).map (64 + ·) := by decide
  rw [this, List.countP_append, List.countP_map, add_comm]
  congr 1
  · apply List.countP_congr
    intro i hi; rw [lowWord_bit v i (by simpa using hi)]
  · apply List.countP_congr
    intro i hi; rw [highWord_bit v i (by simpa using hi)]; rfl

/-- A bit is set in a value or in its complement (R178). -/
theorem popcount_add_popcount_not (v : Word) : popcount v + popcount (~~~v) = 128 := by
  unfold popcount
  have h : (List.range 128).countP (fun i => (~~~v).getLsbD i) =
      (List.range 128).countP (fun i => !(v.getLsbD i)) :=
    by
    apply List.countP_congr
    intro i hi
    have : i < 128 := by simpa using hi
    simp [this]
  rw [h]
  have := List.length_eq_countP_add_countP (fun i => v.getLsbD i) (l := List.range 128)
  simp at this
  simpa using this.symm

/-- A value that is not zero has a set bit. -/
theorem exists_bit_of_ne_zero {v : Word} (h : v ≠ 0) : ∃ i, i < 128 ∧ v.getLsbD i = true := by
  by_contra hc
  push Not at hc
  apply h
  apply BitVec.eq_of_getLsbD_eq
  intro i hi
  simpa using hc i hi

/-- `lsb` is the lowest set bit (R17). -/
theorem lsb_spec {v : Word} (h : v ≠ 0) :
    lsb v < 128 ∧ v.getLsbD (lsb v) = true ∧ ∀ i, i < lsb v → v.getLsbD i = false := by
  obtain ⟨i, hi, hb⟩ := exists_bit_of_ne_zero h
  unfold lsb
  cases hf : (List.range 128).find? (fun i => v.getLsbD i) with
  | none =>
    rw [List.find?_eq_none] at hf
    exact absurd hb (by simpa using hf i (by simpa using hi))
  | some j =>
    rw [List.find?_range_eq_some] at hf
    obtain ⟨h1, h2, h3⟩ := hf
    exact ⟨by simpa using h2, h1, fun i hi => by simpa using h3 i hi⟩

/-- `msb` is the highest set bit (R17). -/
theorem msb_spec {v : Word} (h : v ≠ 0) :
    msb v < 128 ∧ v.getLsbD (msb v) = true ∧ ∀ i, msb v < i → v.getLsbD i = false := by
  obtain ⟨i, hi, hb⟩ := exists_bit_of_ne_zero h
  unfold msb
  have hr : (List.range 128).reverse = (List.range 128).map (127 - ·) := by decide
  rw [hr, List.find?_map]
  cases hf : (List.range 128).find? ((fun i => v.getLsbD i) ∘ (127 - ·)) with
  | none =>
    rw [List.find?_eq_none] at hf
    have := hf (127 - i) (by simp; omega)
    have e : 127 - (127 - i) = i := by omega
    simp [e, hb] at this
  | some j =>
    rw [List.find?_range_eq_some] at hf
    obtain ⟨h1, h2, h3⟩ := hf
    have h2 : j < 128 := by simpa using h2
    refine ⟨by simp; omega, h1, fun i hi => ?_⟩
    by_cases h128 : i < 128
    · have := h3 (127 - i) (by simp at hi; omega)
      have e : 127 - (127 - i) = i := by omega
      simpa [e] using this
    · exact BitVec.getLsbD_of_ge _ _ (by omega)

/-- `ctz64` counts the clear bits below the lowest set one (R172). -/
theorem ctz64_spec (v : BitVec 64) :
    (v = 0 → ctz64 v = 64) ∧
    (v ≠ 0 → ctz64 v < 64 ∧ v.getLsbD (ctz64 v) = true ∧ ∀ i, i < ctz64 v →
      v.getLsbD i = false) := by
  unfold ctz64
  refine ⟨?_, ?_⟩
  · rintro rfl; decide
  · intro h
    cases hf : (List.range 64).find? (fun i => v.getLsbD i) with
    | none =>
      exfalso; apply h
      rw [List.find?_eq_none] at hf
      apply BitVec.eq_of_getLsbD_eq
      intro i hi
      simpa using hf i (by simpa using hi)
    | some j =>
      rw [List.find?_range_eq_some] at hf
      obtain ⟨h1, h2, h3⟩ := hf
      exact ⟨by simpa using h2, h1, fun i hi => by simpa using h3 i hi⟩

/-- `clz64` counts the clear bits above the highest set one (R171). -/
theorem clz64_spec (v : BitVec 64) :
    (v = 0 → clz64 v = 64) ∧
    (v ≠ 0 → clz64 v < 64 ∧ v.getLsbD (63 - clz64 v) = true ∧ ∀ i,
      63 - clz64 v < i → v.getLsbD i = false) := by
  unfold clz64
  refine ⟨?_, ?_⟩
  · rintro rfl; decide
  · intro h
    cases hf : (List.range 64).find? (fun j => v.getLsbD (63 - j)) with
    | none =>
      exfalso; apply h
      rw [List.find?_eq_none] at hf
      apply BitVec.eq_of_getLsbD_eq
      intro i hi
      have e : 63 - (63 - i) = i := by omega
      have := hf (63 - i) (by simp; omega)
      simpa [e] using this
    | some j =>
      rw [List.find?_range_eq_some] at hf
      obtain ⟨h1, h2, h3⟩ := hf
      have h2 : j < 64 := by simpa using h2
      refine ⟨h2, h1, fun i hi => ?_⟩
      by_cases h64 : i < 64
      · have e : 63 - (63 - i) = i := by omega
        have := h3 (63 - i) (by simp at hi; omega)
        simpa [e] using this
      · exact BitVec.getLsbD_of_ge _ _ (by omega)

/-- A value whose two words are zero is zero. -/
theorem eq_zero_of_words {v : Word} (h1 : highWord v = 0) (h2 : lowWord v = 0) : v = 0 := by
  rw [← uVal_inj, uVal_highWord] at h1
  rw [← uVal_inj, uVal_lowWord] at h2
  have e : uVal (0#64) = 0 := rfl
  have e' : uVal (0#128) = 0 := rfl
  rw [← uVal_inj]
  change _ = uVal (0#64) at h1
  change _ = uVal (0#64) at h2
  change _ = uVal (0#128)
  omega

/-- The lowest set bit is one position. -/
theorem lowest_bit_unique {v : Word} {p q : Nat}
    (hp : v.getLsbD p = true) (hp' : ∀ i, i < p → v.getLsbD i = false)
    (hq : v.getLsbD q = true) (hq' : ∀ i, i < q → v.getLsbD i = false) :
    p = q := by
  rcases Nat.lt_trichotomy p q with h | h | h
  · simp [hq' p h] at hp
  · exact h
  · simp [hp' q h] at hq

/-- The highest set bit is one position. -/
theorem highest_bit_unique {v : Word} {p q : Nat}
    (hp : v.getLsbD p = true) (hp' : ∀ i, p < i → v.getLsbD i = false)
    (hq : v.getLsbD q = true) (hq' : ∀ i, q < i → v.getLsbD i = false) :
    p = q := by
  rcases Nat.lt_trichotomy p q with h | h | h
  · simp [hp' q h] at hq
  · exact h
  · simp [hq' p h] at hp

/-- The highest set bit bounds the value (R175). -/
theorem msb_bounds {v : Word} (h : v ≠ 0) : 2^(msb v) ≤ v.toNat ∧ v.toNat < 2^(msb v + 1) := by
  obtain ⟨h1, h2, h3⟩ := msb_spec h
  constructor
  · exact Nat.ge_two_pow_of_testBit h2
  · apply Nat.lt_pow_two_of_testBit
    intro i hi
    exact h3 i (by omega)

end Sys2Proof.Machine
end

