-- ==== Sys2Proof/Laws/Checked.lean ====
section
/-! SUPPORT. The overflow detector: everything the range test and the checked divisions can answer. -/

namespace Sys2Proof.Machine

/-- The three answers of the range test (R190). -/
theorem checkRange_cases (lo hi x : Int) :
    (hi < x ∧ checkRange lo hi x = (w128 0, .overflow)) ∨
    (x ≤ hi ∧ x < lo ∧ checkRange lo hi x = (w128 0, .underflow)) ∨
    (lo ≤ x ∧ x ≤ hi ∧ checkRange lo hi x = (w128 x, .success)) := by
  by_cases h : x > hi
  · exact .inl ⟨h, by simp [checkRange, h]⟩
  · by_cases h' : x < lo
    · exact .inr (.inl ⟨by omega, h', by simp [checkRange, h, h']⟩)
    · exact .inr (.inr ⟨by omega, by omega, by simp [checkRange, h, h']⟩)

/-- The sum of two unsigned values is not below the unsigned range, and their difference not above it. -/
theorem uVal_sum_bounds (x y : Word) : 0 ≤ uVal x + uVal y ∧ uVal x - uVal y ≤ UMAX := by
  have := uVal_nonneg x
  have := uVal_nonneg y
  have := uVal_le_UMAX x
  omega

/-- The product of two unsigned values is not below the unsigned range. -/
theorem uVal_product_nonneg (x y : Word) : 0 ≤ uVal x * uVal y :=
  mul_nonneg (uVal_nonneg x) (uVal_nonneg y)

/-- The pre-check of the unsigned product is its range test (R203). -/
theorem unsigned_product_overflows_iff (x y : Word) :
    (uVal y ≠ 0 ∧ uVal x > UMAX / uVal y) ↔ uVal x * uVal y > UMAX := by
  have hy := uVal_nonneg y
  constructor
  · rintro ⟨h0, h⟩
    have hp : 0 < uVal y := by omega
    exact (Int.ediv_lt_iff_lt_mul hp).1 h
  · intro h
    have h0 : uVal y ≠ 0 := by intro h0; rw [h0] at h; simp [UMAX] at h
    have hp : 0 < uVal y := by omega
    exact ⟨h0, (Int.ediv_lt_iff_lt_mul hp).2 h⟩

/-- The two answers of the checked unsigned division (R197). -/
theorem checkedDivUnsigned_cases (x y : Word) :
    (uVal y = 0 ∧ checkedDivUnsigned x y = ((w128 0, w128 0), .invalidInput)) ∨
    (uVal y ≠ 0 ∧
      checkedDivUnsigned x y = ((w128 (uVal x / uVal y), w128 (uVal x % uVal y)), .success)) := by
  by_cases h : uVal y = 0
  · exact .inl ⟨h, if_pos h⟩
  · exact .inr ⟨h, if_neg h⟩

/-- The three answers of the checked signed division (R198). -/
theorem checkedDivSigned_cases (x y : Word) :
    (uVal y = 0 ∧ checkedDivSigned x y = ((w128 0, w128 0), .invalidInput)) ∨
    (uVal y ≠ 0 ∧ (sVal x = SMIN ∧ sVal y = -1) ∧
      checkedDivSigned x y = ((w128 0, w128 0), .overflow)) ∨
    (uVal y ≠ 0 ∧ ¬ (sVal x = SMIN ∧ sVal y = -1) ∧
      checkedDivSigned x y =
        ((w128 (tdiv (sVal x) (sVal y)), w128 (trem (sVal x) (sVal y))), .success)) := by
  by_cases h : uVal y = 0
  · exact .inl ⟨h, if_pos h⟩
  · by_cases h' : sVal x = SMIN ∧ sVal y = -1
    · exact .inr (.inl ⟨h, h', by rw [checkedDivSigned, if_neg h, if_pos h']⟩)
    · exact .inr (.inr ⟨h, h', by rw [checkedDivSigned, if_neg h, if_neg h']⟩)

end Sys2Proof.Machine
end

