-- ==== Sys2Proof/Laws/PerInstr.lean ====
section
/-! SUPPORT. Statements for all instructions, made per instruction. Family `Encoding`: the FUNC value of a
command selects that command, with its own fields. -/

namespace Sys2Proof.Laws.Encoding

/-- The FUNC map of R82 gives the command back from its FUNC value and its fields. -/
def Statement (i : Instr) : Prop := decodeFunc i.func i.srcA i.srcB = .ok i

theorem pass (a b : Source) : Statement (.pass a b) := rfl
theorem add (a b : Source) : Statement (.add a b) := rfl
theorem sub (a b : Source) : Statement (.sub a b) := rfl
theorem neg (a b : Source) : Statement (.neg a b) := rfl
theorem cmpu (a b : Source) : Statement (.cmpu a b) := rfl
theorem cmps (a b : Source) : Statement (.cmps a b) := rfl
theorem mul (a b : Source) : Statement (.mul a b) := rfl
theorem mulw (a b : Source) : Statement (.mulw a b) := rfl
theorem divu (a b : Source) : Statement (.divu a b) := rfl
theorem divs (a b : Source) : Statement (.divs a b) := rfl
theorem shl (a b : Source) : Statement (.shl a b) := rfl
theorem shru (a b : Source) : Statement (.shru a b) := rfl
theorem shrs (a b : Source) : Statement (.shrs a b) := rfl
theorem rol (a b : Source) : Statement (.rol a b) := rfl
theorem ror (a b : Source) : Statement (.ror a b) := rfl
theorem popcnt (a b : Source) : Statement (.popcnt a b) := rfl
theorem clz (a b : Source) : Statement (.clz a b) := rfl
theorem ctz (a b : Source) : Statement (.ctz a b) := rfl
theorem clo (a b : Source) : Statement (.clo a b) := rfl
theorem cto (a b : Source) : Statement (.cto a b) := rfl
theorem bitwidth (a b : Source) : Statement (.bitwidth a b) := rfl
theorem ffs (a b : Source) : Statement (.ffs a b) := rfl
theorem fls (a b : Source) : Statement (.fls a b) := rfl
theorem caddu (a b : Source) : Statement (.caddu a b) := rfl
theorem cadds (a b : Source) : Statement (.cadds a b) := rfl
theorem csubu (a b : Source) : Statement (.csubu a b) := rfl
theorem csubs (a b : Source) : Statement (.csubs a b) := rfl
theorem cmulu (a b : Source) : Statement (.cmulu a b) := rfl
theorem cmuls (a b : Source) : Statement (.cmuls a b) := rfl
theorem cdivu (a b : Source) : Statement (.cdivu a b) := rfl
theorem cdivs (a b : Source) : Statement (.cdivs a b) := rfl
theorem sataddu (a b : Source) : Statement (.sataddu a b) := rfl
theorem satadds (a b : Source) : Statement (.satadds a b) := rfl
theorem satsubu (a b : Source) : Statement (.satsubu a b) := rfl
theorem satsubs (a b : Source) : Statement (.satsubs a b) := rfl

end Sys2Proof.Laws.Encoding
end

