-- ==== Sys2Proof/Laws/Decode.lean ====
section
/-! SUPPORT. The decoder and the encoder: the opcode byte's fields, and the FUNC map read both ways. -/

namespace Sys2Proof

@[simp] theorem opFunc_opByte (bsel asel : Bool) (f : BitVec 6) : opFunc (opByte bsel asel f) = f := by
  revert bsel asel f; decide

@[simp] theorem opAsel_opByte (bsel asel : Bool) (f : BitVec 6) : opAsel (opByte bsel asel f) = asel := by
  revert bsel asel f; decide

@[simp] theorem opBsel_opByte (bsel asel : Bool) (f : BitVec 6) : opBsel (opByte bsel asel f) = bsel := by
  revert bsel asel f; decide

/-- The three fields of R81 are the whole opcode byte. -/
theorem opByte_fields (op : BitVec 8) : opByte (opBsel op) (opAsel op) (opFunc op) = op := by
  revert op; decide

/-- The FUNC map is the identity on a command's own FUNC value and fields. -/
theorem decodeFunc_func (i : Instr) : decodeFunc i.func i.srcA i.srcB = .ok i := by
  cases i <;> rfl

/-- The map reads only FUNC: with other fields it gives the same command on those fields. -/
theorem decodeFunc_ok {f : BitVec 6} {a b : Source} {i : Instr} (h : decodeFunc f a b = .ok i) :
    i.func = f ∧ i.srcA = a ∧ i.srcB = b := by
  unfold decodeFunc at h
  split at h <;> cases h <;> exact ⟨rfl, rfl, rfl⟩

/-- A FUNC value is reserved with any fields if it is with some. -/
theorem decodeFunc_error_iff {f : BitVec 6} {a b a' b' : Source} :
    (∃ e, decodeFunc f a b = .error e) ↔ ∃ e, decodeFunc f a' b' = .error e := by
  constructor <;> rintro ⟨e, h⟩ <;> unfold decodeFunc at h ⊢ <;> split at h <;>
    first | exact ⟨_, rfl⟩ | cases h

end Sys2Proof
end

