-- ==== Sys2Proof/Laws/Divide.lean ====
section
/-! SUPPORT. The divider: the two functions in closed form, the bounds of their results, and the loop
invariant of binary long division. -/

namespace Sys2Proof.Machine

/-- For a nonzero divisor the unsigned divider gives quotient and remainder (R150). -/
theorem uVal_divUnsigned (x y : Word) (h : uVal y ≠ 0) :
    uVal (divUnsigned x y).1 = uVal x / uVal y ∧ uVal (divUnsigned x y).2 = uVal x % uVal y := by
  have hx := uVal_nonneg x
  have hy := uVal_nonneg y
  have hx' := uVal_le_UMAX x
  have hp : 0 < uVal y := by omega
  unfold divUnsigned
  rw [if_neg h]
  constructor
  · exact uVal_w128_of_range (Int.ediv_nonneg hx hy) (le_trans (Int.ediv_le_self _ hx) hx')
  · have := Int.emod_lt_of_pos (uVal x) hp
    have := uVal_le_UMAX y
    exact uVal_w128_of_range (Int.emod_nonneg _ h) (by omega)

/-- The truncated division of R13 is that of the integers. -/
theorem tdiv_eq_Int_tdiv (a b : Int) : Machine.tdiv a b = Int.tdiv a b := by
  unfold Machine.tdiv
  rcases Int.lt_trichotomy a 0 with ha | ha | ha <;> rcases Int.lt_trichotomy b 0 with hb | hb | hb
  all_goals try (subst_vars; simp)
  · rw [Int.sign_eq_neg_one_of_neg ha, Int.sign_eq_neg_one_of_neg hb]
    obtain ⟨m, rfl⟩ : ∃ m : Nat, a = -m := ⟨a.natAbs, by omega⟩
    obtain ⟨n, rfl⟩ : ∃ n : Nat, b = -n := ⟨b.natAbs, by omega⟩
    simp
  · rw [Int.sign_eq_neg_one_of_neg ha, Int.sign_eq_one_of_pos hb]
    obtain ⟨m, rfl⟩ : ∃ m : Nat, a = -m := ⟨a.natAbs, by omega⟩
    obtain ⟨n, rfl⟩ : ∃ n : Nat, b = n := ⟨b.natAbs, by omega⟩
    simp
  · rw [Int.sign_eq_one_of_pos ha, Int.sign_eq_neg_one_of_neg hb]
    obtain ⟨m, rfl⟩ : ∃ m : Nat, a = m := ⟨a.natAbs, by omega⟩
    obtain ⟨n, rfl⟩ : ∃ n : Nat, b = -n := ⟨b.natAbs, by omega⟩
    simp
  · rw [Int.sign_eq_one_of_pos ha, Int.sign_eq_one_of_pos hb]
    obtain ⟨m, rfl⟩ : ∃ m : Nat, a = m := ⟨a.natAbs, by omega⟩
    obtain ⟨n, rfl⟩ : ∃ n : Nat, b = n := ⟨b.natAbs, by omega⟩
    simp

/-- The remainder of the truncated division of R13 is that of the integers. -/
theorem trem_eq_Int_tmod (a b : Int) : trem a b = Int.tmod a b := by
  unfold trem; rw [tdiv_eq_Int_tdiv]; have := Int.tmod_add_mul_tdiv a b; linarith

/-- The quotient of the magnitudes with the sign reapplied is the truncated quotient (R151). -/
theorem quotient_of_magnitudes (a b : Int) :
    (if decide (a < 0) != decide (b < 0) then -((a.natAbs : Int) / (b.natAbs : Int))
      else (a.natAbs : Int) / (b.natAbs : Int)) = Int.tdiv a b := by
  by_cases ha : a < 0 <;> by_cases hb : b < 0
  · obtain ⟨m, rfl⟩ : ∃ m : Nat, a = -m := ⟨a.natAbs, by omega⟩
    obtain ⟨n, rfl⟩ : ∃ n : Nat, b = -n := ⟨b.natAbs, by omega⟩
    simp only [ha, hb]; simp
  · obtain ⟨m, rfl⟩ : ∃ m : Nat, a = -m := ⟨a.natAbs, by omega⟩
    obtain ⟨n, rfl⟩ : ∃ n : Nat, b = n := ⟨b.natAbs, by omega⟩
    simp only [ha, hb]; simp
  · obtain ⟨m, rfl⟩ : ∃ m : Nat, a = m := ⟨a.natAbs, by omega⟩
    obtain ⟨n, rfl⟩ : ∃ n : Nat, b = -n := ⟨b.natAbs, by omega⟩
    simp only [ha, hb]; simp
  · obtain ⟨m, rfl⟩ : ∃ m : Nat, a = m := ⟨a.natAbs, by omega⟩
    obtain ⟨n, rfl⟩ : ∃ n : Nat, b = n := ⟨b.natAbs, by omega⟩
    simp only [ha, hb]; simp

/-- The remainder of the magnitudes with the dividend's sign is that of the truncated division (R151). -/
theorem remainder_of_magnitudes (a b : Int) :
    (if a < 0 then -((a.natAbs : Int)%(b.natAbs:Int)) else (a.natAbs : Int)%(b.natAbs:Int)) =
      Int.tmod a b := by
  have h : (a.natAbs : Int) % (b.natAbs : Int) = (Int.tmod a b).natAbs := by
    rw [Int.natAbs_tmod]; push_cast; rfl
  have h1 : 0 ≤ a → 0 ≤ Int.tmod a b := fun h => Int.tmod_nonneg b h
  have h2 : a ≤ 0 → Int.tmod a b ≤ 0 :=
    fun h => by have := Int.tmod_nonneg b (a := -a) (by omega); rw [Int.neg_tmod] at this; omega
  rw [h]; split <;> omega

/-- For a nonzero divisor the signed divider gives the truncated quotient and its remainder (R151). -/
theorem divSigned_eq (x y : Word) (h : uVal y ≠ 0) :
    divSigned x y = (w128 (Machine.tdiv (sVal x) (sVal y)), w128 (trem (sVal x) (sVal y))) := by
  unfold divSigned
  rw [if_neg h, tdiv_eq_Int_tdiv, trem_eq_Int_tmod, ← quotient_of_magnitudes, ← remainder_of_magnitudes]

/-- A pattern that is not zero unsigned is not zero signed. -/
theorem sVal_ne_zero {y : Word} (h : uVal y ≠ 0) : sVal y ≠ 0 := by
  intro h'; apply h; have := sVal_emod y; rw [h'] at this; simpa using this.symm

/-- Every truncated quotient but SMIN / -1 lies in the signed range (R198). -/
theorem tdiv_bounds (x y : Word) (h : ¬ (sVal x = SMIN ∧ sVal y = -1)) :
    SMIN ≤ Int.tdiv (sVal x) (sVal y) ∧ Int.tdiv (sVal x) (sVal y) ≤ SMAX := by
  have hb := sVal_bounds x
  have h1 := Int.natAbs_tdiv (sVal x) (sVal y)
  have h2 := Nat.div_le_self (sVal x).natAbs (sVal y).natAbs
  have h3 : (Int.tdiv (sVal x) (sVal y)).natAbs ≤ (sVal x).natAbs := by rw [h1]; exact h2
  simp only [SMIN, SMAX] at *
  refine ⟨by omega, ?_⟩
  by_cases hx : sVal x = -2^127
  · by_cases hy : sVal y = 1
    · rw [hy]; simp; omega
    · by_cases hy0 : sVal y = 0
      · rw [hy0]; simp
      · have h4 : 2 ≤ (sVal y).natAbs := by omega
        have h5 : (sVal x).natAbs / (sVal y).natAbs ≤ (sVal x).natAbs / 2 :=
          Nat.div_le_div_left h4 (by norm_num)
        have h6 : (sVal x).natAbs = 2^127 := by omega
        have h7 : (sVal x).natAbs / 2 = 2^126 := by rw [h6]; norm_num
        have h8 : (Int.tdiv (sVal x) (sVal y)).natAbs ≤ 2^126 := by rw [h1, ← h7]; exact h5
        generalize Int.tdiv (sVal x) (sVal y) = Q at *
        omega
  · omega

/-- The remainder lies in the signed range, below the divisor in magnitude (R152). -/
theorem tmod_bounds (x y : Word) (hy : sVal y ≠ 0) :
    SMIN ≤ Int.tmod (sVal x) (sVal y) ∧ Int.tmod (sVal x) (sVal y) ≤ SMAX ∧
      (Int.tmod (sVal x) (sVal y)).natAbs < (sVal y).natAbs := by
  have hb := sVal_bounds y
  have h : (Int.tmod (sVal x) (sVal y)).natAbs < (sVal y).natAbs := by
    rw [Int.natAbs_tmod]; exact Nat.mod_lt _ (by omega)
  simp only [SMIN, SMAX] at *
  refine ⟨by omega, by omega, h⟩

/-- Setting a bit below which the quotient is still clear adds its weight. -/
theorem or_twoPow_toNat (q : Word) (k : Nat) (hk : k < 128) (h : q.toNat % 2^(k+1) = 0) :
    (q ||| BitVec.twoPow 128 k).toNat = q.toNat + 2^k := by
  obtain ⟨m, hm⟩ := Nat.dvd_of_mod_eq_zero h
  have p : 2^k < 2^(k+1) := Nat.pow_lt_pow_right (by norm_num) (by omega)
  have p2 : 2^k < 2^128 := Nat.pow_lt_pow_right (by norm_num) hk
  rw [BitVec.toNat_or, BitVec.toNat_twoPow, Nat.mod_eq_of_lt p2, hm, ← Nat.two_pow_add_eq_or_of_lt p]

/-- The loop invariant of binary long division: the quotient so far times the divisor, and the running
remainder below it, make the dividend bits pulled in so far (R154). -/
theorem longDivisionFrom_invariant (n d : Word) :
    ∀ (k : Nat), k ≤ 128 → ∀ (q : Word) (r : Nat), r < d.toNat →
    q.toNat % 2^k = 0 → q.toNat / 2^k * d.toNat + r = n.toNat / 2^k →
   (longDivisionFrom n d k q r).1.toNat * d.toNat + (longDivisionFrom n d k q r).2 = n.toNat ∧
    (longDivisionFrom n d k q r).2 < d.toNat := by
  intro k
  induction k with
  | zero => intro _ q r hr _ h; simp at h; exact ⟨h, hr⟩
  | succ k ih =>
    intro hk q r hr hq h
    have hbit : n.toNat / 2^k = 2 * (n.toNat / 2^(k+1)) + (n.getLsbD k).toNat := by
      have e : n.toNat / 2^(k+1) = n.toNat / 2^k / 2 := by rw [pow_succ, Nat.div_div_eq_div_mul]
      have e2 : (n.getLsbD k).toNat = n.toNat / 2^k % 2 := by
        rw [BitVec.getLsbD, Nat.testBit_eq_decide_div_mod_eq]
        rcases Nat.mod_two_eq_zero_or_one (n.toNat / 2^k) with h | h <;> simp [h]
      omega
    obtain ⟨m, hm⟩ := Nat.dvd_of_mod_eq_zero hq
    have p : 0 < 2^k := by positivity
    have hm' : q.toNat / 2^(k+1) = m := by rw [hm]; exact Nat.mul_div_cancel_left _ (by positivity)
    have hmk : q.toNat = 2^k * (2*m) := by rw [hm, pow_succ]; ring
    rw [hm'] at h
    simp only [longDivisionFrom, longDivisionPass]
    split
    · next hge =>
      apply ih (by omega)
      · show 2 * r + (n.getLsbD k).toNat - d.toNat < d.toNat
        have := Bool.toNat_le (n.getLsbD k)
        omega
      · rw [or_twoPow_toNat q k (by omega) hq, hmk]; simp
      · rw [or_twoPow_toNat q k (by omega) hq, hmk]
        have : (2^k * (2*m) + 2^k) / 2^k = 2*m+1 := by rw [Nat.mul_add_div p, Nat.div_self p]
        rw [this, hbit, ← h]
        have : (2*m+1) * d.toNat = 2 * (m * d.toNat) + d.toNat := by ring
        simp only at hge ⊢
        omega
    · next hlt =>
      apply ih (by omega)
      · show 2 * r + (n.getLsbD k).toNat < d.toNat
        omega
      · rw [hmk]; simp
      · rw [hmk, Nat.mul_div_cancel_left _ p, hbit, ← h]
        ring

/-- The magnitude of every value fits (R151). -/
theorem uVal_magnitude (v : Word) : uVal (magnitude v) = ((sVal v).natAbs : Int) := by
  have := sVal_bounds v
  simp only [SMIN, SMAX] at this
  apply uVal_w128_of_range (by omega); simp only [UMAX]; omega

end Sys2Proof.Machine
end

