-- ==== Sys2Proof/Laws/State.lean ====
section
/-! SUPPORT. The fields of the state after each named update: one lemma per field per update. -/

namespace Sys2Proof.Machine.State

@[simp] theorem finish_res0 (r0 r1 : Word) (st : Status) (s : State) :
    (s.finish r0 r1 st).res0 = r0 := rfl
@[simp] theorem finish_res1 (r0 r1 : Word) (st : Status) (s : State) :
    (s.finish r0 r1 st).res1 = r1 := rfl
@[simp] theorem finish_status (r0 r1 : Word) (st : Status) (s : State) :
    (s.finish r0 r1 st).status = st := rfl
@[simp] theorem finish_valid (r0 r1 : Word) (st : Status) (s : State) :
    (s.finish r0 r1 st).valid = true := rfl
@[simp] theorem finish_pending (r0 r1 : Word) (st : Status) (s : State) :
    (s.finish r0 r1 st).pending = none := rfl
@[simp] theorem finish_host (r0 r1 : Word) (st : Status) (s : State) :
    (s.finish r0 r1 st).host = s.host := rfl
@[simp] theorem finish_timing (r0 r1 : Word) (st : Status) (s : State) :
    (s.finish r0 r1 st).timing = s.timing := rfl

@[simp] theorem writeRes0_res0 (r0 : Word) (st : Status) (s : State) :
    (s.writeRes0 r0 st).res0 = r0 := rfl
@[simp] theorem writeRes0_res1 (r0 : Word) (st : Status) (s : State) :
    (s.writeRes0 r0 st).res1 = s.res1 := rfl
@[simp] theorem writeRes0_status (r0 : Word) (st : Status) (s : State) :
    (s.writeRes0 r0 st).status = st := rfl
@[simp] theorem writeRes0_valid (r0 : Word) (st : Status) (s : State) :
    (s.writeRes0 r0 st).valid = true := rfl
@[simp] theorem writeRes0_pending (r0 : Word) (st : Status) (s : State) :
    (s.writeRes0 r0 st).pending = none := rfl
@[simp] theorem writeRes0_host (r0 : Word) (st : Status) (s : State) :
    (s.writeRes0 r0 st).host = s.host := rfl
@[simp] theorem writeRes0_timing (r0 : Word) (st : Status) (s : State) :
    (s.writeRes0 r0 st).timing = s.timing := rfl

@[simp] theorem writeBoth_res0 (r0 r1 : Word) (st : Status) (s : State) :
    (s.writeBoth r0 r1 st).res0 = r0 := rfl
@[simp] theorem writeBoth_res1 (r0 r1 : Word) (st : Status) (s : State) :
    (s.writeBoth r0 r1 st).res1 = r1 := rfl
@[simp] theorem writeBoth_status (r0 r1 : Word) (st : Status) (s : State) :
    (s.writeBoth r0 r1 st).status = st := rfl
@[simp] theorem writeBoth_valid (r0 r1 : Word) (st : Status) (s : State) :
    (s.writeBoth r0 r1 st).valid = true := rfl
@[simp] theorem writeBoth_pending (r0 r1 : Word) (st : Status) (s : State) :
    (s.writeBoth r0 r1 st).pending = none := rfl
@[simp] theorem writeBoth_host (r0 r1 : Word) (st : Status) (s : State) :
    (s.writeBoth r0 r1 st).host = s.host := rfl
@[simp] theorem writeBoth_timing (r0 r1 : Word) (st : Status) (s : State) :
    (s.writeBoth r0 r1 st).timing = s.timing := rfl

@[simp] theorem report_res0 (st : Status) (s : State) :
    (s.report st).res0 = s.res0 := rfl
@[simp] theorem report_res1 (st : Status) (s : State) :
    (s.report st).res1 = s.res1 := rfl
@[simp] theorem report_status (st : Status) (s : State) :
    (s.report st).status = st := rfl
@[simp] theorem report_valid (st : Status) (s : State) :
    (s.report st).valid = true := rfl
@[simp] theorem report_pending (st : Status) (s : State) :
    (s.report st).pending = none := rfl
@[simp] theorem report_host (st : Status) (s : State) :
    (s.report st).host = s.host := rfl
@[simp] theorem report_timing (st : Status) (s : State) :
    (s.report st).timing = s.timing := rfl

@[simp] theorem advance_res0 (s : State) :
    (s.advance).res0 = s.res0 := rfl
@[simp] theorem advance_res1 (s : State) :
    (s.advance).res1 = s.res1 := rfl
@[simp] theorem advance_status (s : State) :
    (s.advance).status = s.status := rfl
@[simp] theorem advance_valid (s : State) :
    (s.advance).valid = s.valid := rfl
@[simp] theorem advance_pending (s : State) :
    (s.advance).pending = s.pending := rfl
@[simp] theorem advance_host (s : State) :
    (s.advance).host = s.host.tail := rfl
@[simp] theorem advance_timing (s : State) :
    (s.advance).timing = s.timing := rfl

@[simp] theorem startPending_res0 (p : Pending) (s : State) :
    (s.startPending p).res0 = s.res0 := rfl
@[simp] theorem startPending_res1 (p : Pending) (s : State) :
    (s.startPending p).res1 = s.res1 := rfl
@[simp] theorem startPending_status (p : Pending) (s : State) :
    (s.startPending p).status = s.status := rfl
@[simp] theorem startPending_valid (p : Pending) (s : State) :
    (s.startPending p).valid = false := rfl
@[simp] theorem startPending_pending (p : Pending) (s : State) :
    (s.startPending p).pending = some p := rfl
@[simp] theorem startPending_host (p : Pending) (s : State) :
    (s.startPending p).host = s.host := rfl
@[simp] theorem startPending_timing (p : Pending) (s : State) :
    (s.startPending p).timing = s.timing := rfl

@[simp] theorem tick_res0 (p : Pending) (s : State) :
    (s.tick p).res0 = s.res0 := rfl
@[simp] theorem tick_res1 (p : Pending) (s : State) :
    (s.tick p).res1 = s.res1 := rfl
@[simp] theorem tick_status (p : Pending) (s : State) :
    (s.tick p).status = s.status := rfl
@[simp] theorem tick_valid (p : Pending) (s : State) :
    (s.tick p).valid = s.valid := rfl
@[simp] theorem tick_pending (p : Pending) (s : State) :
    (s.tick p).pending = some { p with left := p.left - 1 } := rfl
@[simp] theorem tick_host (p : Pending) (s : State) :
    (s.tick p).host = s.host := rfl
@[simp] theorem tick_timing (p : Pending) (s : State) :
    (s.tick p).timing = s.timing := rfl

@[simp] theorem resetRegisters_res0 (s : State) :
    (s.resetRegisters).res0 = 0 := rfl
@[simp] theorem resetRegisters_res1 (s : State) :
    (s.resetRegisters).res1 = 0 := rfl
@[simp] theorem resetRegisters_status (s : State) :
    (s.resetRegisters).status = .success := rfl
@[simp] theorem resetRegisters_valid (s : State) :
    (s.resetRegisters).valid = false := rfl
@[simp] theorem resetRegisters_pending (s : State) :
    (s.resetRegisters).pending = none := rfl
@[simp] theorem resetRegisters_host (s : State) :
    (s.resetRegisters).host = s.host := rfl
@[simp] theorem resetRegisters_timing (s : State) :
    (s.resetRegisters).timing = s.timing := rfl

@[simp] theorem presentNext_res0 (c : Command) (s : State) :
    (s.presentNext c).res0 = s.res0 := rfl
@[simp] theorem presentNext_res1 (c : Command) (s : State) :
    (s.presentNext c).res1 = s.res1 := rfl
@[simp] theorem presentNext_status (c : Command) (s : State) :
    (s.presentNext c).status = s.status := rfl
@[simp] theorem presentNext_valid (c : Command) (s : State) :
    (s.presentNext c).valid = s.valid := rfl
@[simp] theorem presentNext_pending (c : Command) (s : State) :
    (s.presentNext c).pending = none := rfl
@[simp] theorem presentNext_host (c : Command) (s : State) :
    (s.presentNext c).host = .present c :: s.host := rfl
@[simp] theorem presentNext_timing (c : Command) (s : State) :
    (s.presentNext c).timing = { s.timing with rules := ⟨opFunc c.op, none, 0⟩ :: s.timing.rules } := rfl

@[simp] theorem reset_res0 : State.reset.res0 = 0 := rfl
@[simp] theorem reset_res1 : State.reset.res1 = 0 := rfl
@[simp] theorem reset_status : State.reset.status = .success := rfl
@[simp] theorem reset_valid : State.reset.valid = false := rfl
@[simp] theorem reset_pending : State.reset.pending = none := rfl
@[simp] theorem reset_host : State.reset.host = [] := rfl
@[simp] theorem reset_timing : State.reset.timing = ⟨0, []⟩ := rfl

/-- The pins do not depend on the registers. -/
theorem pins_cons (s : State) (p : PortSample) (rest : List PortSample) :
    ({ s with host := p :: rest } : State).pins = p := rfl

theorem busy_eq_false_iff (s : State) : s.busy = false ↔ s.pending = none := by
  cases h : s.pending <;> simp [busy, h]

end Sys2Proof.Machine.State
end

