-- ==== Sys2Proof/Laws/Exec.lean ====
section
/-! SUPPORT. What every command does, said once: it completes, with some values for RES0, RES1 and STATUS
and nothing else touched. -/

namespace Sys2Proof.Machine

/-- The values a completion writes: RES0, RES1 and STATUS. -/
structure Results where
  r0 : Word
  r1 : Word
  st : Status
  deriving DecidableEq, Repr

/-- A command's results from its operands A and B and the RES1 it would keep: `semantics_f` of R89. -/
def results (i : Instr) (x y keep : Word) : Results :=
  match i with
  | .pass _ _ => ⟨x, y, .success⟩
  | .add _ _ => ⟨addWords x y, keep, .success⟩
  | .sub _ _ => ⟨subWords x y, keep, .success⟩
  | .neg _ _ => ⟨negWord x, keep, .success⟩
  | .cmpu _ _ => ⟨threeWay (uVal x) (uVal y), keep, .success⟩
  | .cmps _ _ => ⟨threeWay (sVal x) (sVal y), keep, .success⟩
  | .mul _ _ => ⟨mulWord x y, keep, .success⟩
  | .mulw _ _ => ⟨mulLowWords x y, keep, .success⟩
  | .divu _ _ => ⟨(divUnsigned x y).1, (divUnsigned x y).2, .success⟩
  | .divs _ _ => ⟨(divSigned x y).1, (divSigned x y).2, .success⟩
  | .shl _ _ => ⟨shiftLeft x (shiftAmount y), keep, .success⟩
  | .shru _ _ => ⟨shiftRightLogical x (shiftAmount y), keep, .success⟩
  | .shrs _ _ => ⟨shiftRightArith x (shiftAmount y), keep, .success⟩
  | .rol _ _ => ⟨rotateLeftBy x (rotateAmount y), keep, .success⟩
  | .ror _ _ => ⟨rotateRightBy x (rotateAmount y), keep, .success⟩
  | .popcnt _ _ => ⟨zextCount (popcount x), keep, .success⟩
  | .clz _ _ => ⟨countLeadingZeros x, keep, .success⟩
  | .ctz _ _ => ⟨countTrailingZeros x, keep, .success⟩
  | .clo _ _ => ⟨countLeadingZeros (~~~x), keep, .success⟩
  | .cto _ _ => ⟨countTrailingZeros (~~~x), keep, .success⟩
  | .bitwidth _ _ => ⟨bitWidthOf x, keep, .success⟩
  | .ffs _ _ => ⟨findFirstSet x, keep, .success⟩
  | .fls _ _ => ⟨findLastSet x, keep, .success⟩
  | .caddu _ _ =>
    ⟨(checkRange 0 UMAX (uVal x + uVal y)).1, keep, (checkRange 0 UMAX (uVal x + uVal y)).2⟩
  | .cadds _ _ =>
    ⟨(checkRange SMIN SMAX (sVal x + sVal y)).1, keep, (checkRange SMIN SMAX (sVal x + sVal y)).2⟩
  | .csubu _ _ =>
    ⟨(checkRange 0 UMAX (uVal x - uVal y)).1, keep, (checkRange 0 UMAX (uVal x - uVal y)).2⟩
  | .csubs _ _ =>
    ⟨(checkRange SMIN SMAX (sVal x - sVal y)).1, keep, (checkRange SMIN SMAX (sVal x - sVal y)).2⟩
  | .cmulu _ _ =>
    ⟨(checkRange 0 UMAX (uVal x * uVal y)).1, keep, (checkRange 0 UMAX (uVal x * uVal y)).2⟩
  | .cmuls _ _ =>
    ⟨(checkRange SMIN SMAX (sVal x * sVal y)).1, keep, (checkRange SMIN SMAX (sVal x * sVal y)).2⟩
  | .cdivu _ _ =>
    ⟨(checkedDivUnsigned x y).1.1, (checkedDivUnsigned x y).1.2, (checkedDivUnsigned x y).2⟩
  | .cdivs _ _ =>
    ⟨(checkedDivSigned x y).1.1, (checkedDivSigned x y).1.2, (checkedDivSigned x y).2⟩
  | .sataddu _ _ => ⟨w128 (min (uVal x + uVal y) UMAX), keep, .success⟩
  | .satadds _ _ => ⟨w128 (clamp (sVal x + sVal y) SMIN SMAX), keep, .success⟩
  | .satsubu _ _ => ⟨w128 (max (uVal x - uVal y) 0), keep, .success⟩
  | .satsubs _ _ => ⟨w128 (clamp (sVal x - sVal y) SMIN SMAX), keep, .success⟩

/-- Every command completes, and its completion writes the results of its operands. -/
theorem exec_eq (i : Instr) (s : State) :
    exec i s = .next (s.finish
      (results i (s.operandA i.srcA) (s.operandB i.srcB) s.res1).r0
      (results i (s.operandA i.srcA) (s.operandB i.srcB) s.res1).r1
      (results i (s.operandA i.srcA) (s.operandB i.srcB) s.res1).st) := by
  cases i <;> rfl

/-- A command that does not write RES1 keeps it. -/
theorem results_keep {i : Instr} (h : i.writesRes1 = false) (x y keep : Word) :
    (results i x y keep).r1 = keep := by
  cases i <;> first | rfl | cases h

/-- A command that writes RES1 does not read the old one. -/
theorem results_not_keep {i : Instr} (h : i.writesRes1 = true) (x y k k' : Word) :
    results i x y k = results i x y k' := by
  cases i <;> first | rfl | cases h

/-- RES0 and STATUS do not depend on the RES1 that is kept. -/
theorem results_keep_irrelevant (i : Instr) (x y k k' : Word) :
    (results i x y k).r0 = (results i x y k').r0 ∧ (results i x y k).st = (results i x y k').st := by
  cases i <;> exact ⟨rfl, rfl⟩

/-- FUNC alone fixes the function of the operands: "The behaviour of each command is fixed by its FUNC
value alone" (10_state.md rule R39). -/
theorem results_of_func {i j : Instr} (h : i.func = j.func) (x y keep : Word) :
    results i x y keep = results j x y keep := by
  have hj := decodeFunc_func j
  rw [← h] at hj
  generalize j.srcA = a at hj
  generalize j.srcB = b at hj
  cases i <;> (injection hj with hj; subst hj; rfl)

/-- A unary command does not read B (30_encoding.md rule R87). -/
theorem results_unary {i : Instr} (h : i.unary = true) (x y y' keep : Word) :
    results i x y keep = results i x y' keep := by
  cases i <;> first | (cases h; done) | rfl

/-- No command writes a code that R33 leaves without a name. -/
theorem results_named (i : Instr) (x y keep : Word) : (results i x y keep).st.named = true := by
  cases i <;> simp only [results, checkRange, checkedDivUnsigned, checkedDivSigned] <;>
     first | rfl | (split <;> first | rfl | (split <;> rfl))

end Sys2Proof.Machine
end

