-- ==== Sys2Proof/Laws/Step.lean ====
section
/-! SUPPORT. What one edge can do, said once (`step_cases`), and what the completion of a captured command
does. The lemmas about invariants and runs cite these and do not unfold the step. -/

namespace Sys2Proof.Machine

/-- A reserved FUNC completes by its report alone. -/
theorem complete_reserved {p : Pending} {e : DecodeError}
    (h : decodeFunc (opFunc p.op) (.lit p.a) (.lit p.b) = .error e) (s : State) :
    complete p s = .next (s.report .illegalOp) := by
  simp only [complete, h]

/-- A command of R82 completes by its meaning on the captured operands. -/
theorem complete_defined {p : Pending} {i : Instr}
    (h : decodeFunc (opFunc p.op) (.lit p.a) (.lit p.b) = .ok i) (s : State) :
    complete p s = exec i s := by
  simp only [complete, h]

/-- A completion always answers next: it writes RES0, RES1 and STATUS, with a code that R33 names. -/
theorem complete_cases (p : Pending) (s : State) :
    ∃ r0 r1 st, complete p s = .next (s.finish r0 r1 st) ∧ st.named = true := by
  cases h : decodeFunc (opFunc p.op) (.lit p.a) (.lit p.b) with
  | error e => exact ⟨_, _, _, complete_reserved h s, rfl⟩
  | ok i => exact ⟨_, _, _, by rw [complete_defined h, exec_eq], results_named _ _ _ _⟩

/-- The meaning of a command is its meaning on its own resolved operands, as captured at acceptance. -/
theorem exec_resolved {f : BitVec 6} {a b : Source} {x y : Word} {i j : Instr} (s : State)
    (hi : decodeFunc f a b = .ok i) (hj : decodeFunc f (.lit x) (.lit y) = .ok j)
    (ha : s.operandA a = x) (hb : s.operandB b = y) : exec j s = exec i s := by
  obtain ⟨hf, hia, hib⟩ := decodeFunc_ok hi
  obtain ⟨hf', hja, hjb⟩ := decodeFunc_ok hj
  have hres : ∀ k, results j x y k = results i x y k :=
    fun k => (results_of_func (hf.trans hf'.symm) x y k).symm
  rw [exec_eq, exec_eq, hia, hib, hja, hjb, ha, hb]
  rw [show s.operandA (.lit x) = x from rfl, show s.operandB (.lit y) = y from rfl, hres]

/-- Everything one edge can do. -/
theorem step_cases (s : State) :
    (s.pins.rst = true ∧ step s = .next s.advance.resetRegisters) ∨
    (s.pins.rst = false ∧ ∃ p, s.pending = some p ∧ p.left ≤ 1 ∧ step s = complete p s.advance) ∨
    (s.pins.rst = false ∧ ∃ p, s.pending = some p ∧ 1 < p.left ∧ step s = .next (s.advance.tick p)) ∨
    (s.pins.rst = false ∧ s.pending = none ∧ s.pins.inValid = false ∧ step s = .next s.advance) ∨
    (s.pins.rst = false ∧ s.pending = none ∧ s.pins.inValid = true ∧
      (s.advance.capture s.pins.command).left = 0 ∧
      step s = complete (s.advance.capture s.pins.command) s.advance) ∨
    (s.pins.rst = false ∧ s.pending = none ∧ s.pins.inValid = true ∧
      0 < (s.advance.capture s.pins.command).left ∧
      step s = .next (s.advance.startPending (s.advance.capture s.pins.command))) := by
  cases hr : s.pins.rst with
  | true => exact .inl ⟨rfl, by simp [step, clockEdge, hr]⟩
  | false =>
    refine .inr ?_
    cases hp : s.pending with
    | some p =>
      by_cases hl : p.left ≤ 1
      · exact .inl ⟨rfl, p, rfl, hl, by simp [step, clockEdge, hr, hp, hl]⟩
      · exact .inr (.inl ⟨rfl, p, rfl, by omega, by simp [step, clockEdge, hr, hp, hl]⟩)
    | none =>
      refine .inr (.inr ?_)
      cases hv : s.pins.inValid with
      | false => exact .inl ⟨rfl, rfl, rfl, by simp [step, clockEdge, hr, hp, hv]⟩
      | true =>
        refine .inr ?_
        by_cases hl : (s.advance.capture s.pins.command).left = 0
        · exact .inl ⟨rfl, rfl, rfl, hl, by simp [step, clockEdge, hr, hp, hv, accept, hl]⟩
        · exact .inr ⟨rfl, rfl, rfl, by omega, by simp [step, clockEdge, hr, hp, hv, accept, hl]⟩

/-- The latency of a command never exceeds MAX_LAT (R262). -/
theorem latency_le (t : Timing) (f : BitVec 6) (a b : Word) : latency t f a b ≤ t.maxLat := by
  unfold latency
  split
  · exact Nat.min_le_right _ _
  · exact Nat.zero_le _

/-- A command executes the same whatever STATUS, VALID and the pending record hold. -/
theorem exec_unread (i : Instr) (s : State) (st : Status) (v : Bool) (q : Option Pending) :
    exec i { s with status := st, valid := v, pending := q } = exec i s := by
  rw [exec_eq, exec_eq]
  rfl

/-- A completion is the same whatever STATUS, VALID and the pending record hold. -/
theorem complete_unread (p : Pending) (s : State) (v : Bool) (q : Option Pending) :
    complete p { s with valid := v, pending := q } = complete p s := by
  cases h : decodeFunc (opFunc p.op) (.lit p.a) (.lit p.b) with
  | error e => rw [complete_reserved h, complete_reserved h]; rfl
  | ok i => rw [complete_defined h, complete_defined h]; exact exec_unread i s s.status v q

/-- The next port values do not reset, and neither do the ones after them. -/
theorem noReset_succ {k : Nat} {s : State} (h : NoReset (k + 1) s) :
    s.pins.rst = false ∧ ∀ t : State, t.host = s.host.tail → NoReset k t := by
  cases hs : s.host with
  | nil =>
    refine ⟨by simp [State.pins, hs, PortSample.idle], fun t ht p hp => ?_⟩
    simp [ht] at hp
  | cons p rest =>
    have h0 : ∀ q ∈ p :: rest.take k, q.rst = false := by
      intro q hq
      exact h q (by rw [hs, List.take_succ_cons]; exact hq)
    refine ⟨by simpa [State.pins, hs] using h0 p (by simp), fun t ht q hq => ?_⟩
    rw [ht, List.tail_cons] at hq
    exact h0 q (List.mem_cons_of_mem _ hq)

/-- A command in progress with `n + 1` edges to go lands at the last of them: its completion, over the
registers of now and past the port values of the edges between. -/
theorem runEdges_pending (n : Nat) : ∀ (s : State) (p : Pending), s.pending = some p →
    p.left = n + 1 → NoReset (n + 1) s →
    runEdges (n + 1) s = complete p { s with host := s.host.drop (n + 1) } := by
  induction n with
  | zero =>
    intro s p hp hl hr
    obtain ⟨hr0, -⟩ := noReset_succ hr
    have hs : step s = complete p s.advance := by simp [step, clockEdge, hr0, hp, hl]
    obtain ⟨r0, r1, st, hc, -⟩ := complete_cases p s.advance
    have : s.advance = { s with host := s.host.drop 1 } := by simp [State.advance]
    rw [← this, runEdges, hs, hc]
    rfl
  | succ n ih =>
    intro s p hp hl hr
    obtain ⟨hr0, hr1⟩ := noReset_succ hr
    have hs : step s = .next (s.advance.tick p) := by simp [step, clockEdge, hr0, hp, hl]
    have hrec := ih (s.advance.tick p) { p with left := p.left - 1 } rfl (by simp [hl])
      (hr1 _ (by simp))
    have hrun : runEdges (n + 1 + 1) s = runEdges (n + 1) (s.advance.tick p) := by
      rw [runEdges, hs]
    rw [hrun, hrec]
    have hst : ({ s.advance.tick p with host := (s.advance.tick p).host.drop (n + 1) } : State) =
        { ({ s with host := s.host.drop (n + 1 + 1) } : State) with
          valid := s.valid, pending := some { p with left := p.left - 1 } } := by
      simp [State.tick, State.advance, List.drop_tail]
    rw [hst, complete_unread]
    rfl

/-- From its acceptance over an idle core, a command of latency `n` lands after `n + 1` edges. -/
theorem runEdges_accept (s : State) (hv : s.pins.inValid = true) (hp : s.pending = none)
    (hr : NoReset ((s.capture s.pins.command).left + 1) s) :
    runEdges ((s.capture s.pins.command).left + 1) s =
      complete (s.capture s.pins.command)
        { s with host := s.host.drop ((s.capture s.pins.command).left + 1) } := by
  obtain ⟨hr0, hr1⟩ := noReset_succ hr
  have hcap : s.advance.capture s.pins.command = s.capture s.pins.command := rfl
  rcases hl : (s.capture s.pins.command).left with _ | n
  · have hs : step s = complete (s.capture s.pins.command) s.advance := by
      simp [step, clockEdge, hr0, hp, hv, accept, hcap, hl]
    obtain ⟨r0, r1, st, hc, -⟩ := complete_cases (s.capture s.pins.command) s.advance
    have : s.advance = { s with host := s.host.drop (0 + 1) } := by simp [State.advance]
    rw [← this, runEdges, hs, hc]
    rfl
  · have hs : step s = .next (s.advance.startPending (s.capture s.pins.command)) := by
      simp [step, clockEdge, hr0, hp, hv, accept, hcap, hl]
    have hrun : runEdges (n + 1 + 1) s =
        runEdges (n + 1) (s.advance.startPending (s.capture s.pins.command)) := by
      rw [runEdges, hs]
    rw [hrun, runEdges_pending n _ (s.capture s.pins.command) rfl hl
      (hl ▸ hr1 _ (by simp))]
    have hst : ({ s.advance.startPending (s.capture s.pins.command) with
        host := (s.advance.startPending (s.capture s.pins.command)).host.drop (n + 1) } : State) =
        { ({ s with host := s.host.drop (n + 1 + 1) } : State) with
          valid := false, pending := some (s.capture s.pins.command) } := by
      simp [State.startPending, State.advance, List.drop_tail]
    rw [hst, complete_unread]

/-- A captured command of R82 completes as its meaning on the state it was accepted over. -/
theorem complete_capture {s : State} {c : Command} {i : Instr} (hd : decode c = .ok i) (t : State)
    (h0 : t.res0 = s.res0) (h1 : t.res1 = s.res1) : complete (s.capture c) t = exec i t := by
  have ha : t.operandA c.srcA = (s.capture c).a := by simp [State.capture, State.operandA, h0]
  have hb : t.operandB c.srcB = (s.capture c).b := by simp [State.capture, State.operandB, h1]
  cases hj : decodeFunc (opFunc (s.capture c).op) (.lit (s.capture c).a) (.lit (s.capture c).b) with
  | ok j => rw [complete_defined hj]; exact exec_resolved t hd hj ha hb
  | error e =>
    obtain ⟨e', h'⟩ := (decodeFunc_error_iff (a' := c.srcA) (b' := c.srcB)).1 ⟨e, hj⟩
    exact absurd (h'.symm.trans hd) (by simp)

end Sys2Proof.Machine
end

