-- ==== Sys2Proof/Laws/Run.lean ====
section
/-! SUPPORT. Acceptance at an edge, and the runs of a host program (70_reset_and_hazards.md rules R252 and
R265): what an edge does to a run, that an ended run stays ended with the same end state, and that the last
entry of an ended run's record is what the result port shows. -/

namespace Sys2Proof.Machine

/-- R252: `rst = 0`, `in_valid = 1`, and the core idle. -/
theorem accepts_iff (s : State) :
    s.accepts = true ↔ s.pins.rst = false ∧ s.pending = none ∧ s.pins.inValid = true := by
  cases hp : s.pending <;> simp [State.accepts, State.inReady, State.busy, hp, and_comm]

/-- An edge at which a command is accepted is its acceptance. -/
theorem step_of_accepts {s : State} (h : s.accepts = true) :
    step s = accept s.pins.command s.advance := by
  obtain ⟨hr, hp, hv⟩ := (accepts_iff s).1 h
  simp [step, clockEdge, hr, hp, hv]

/-- An idle core that accepts nothing and is not reset keeps every register. -/
theorem step_of_quiet {s : State} (hr : s.pins.rst = false) (hb : s.busy = false)
    (ha : s.accepts = false) : step s = .next s.advance := by
  have hp : s.pending = none := by simpa [State.busy] using hb
  have hv : s.pins.inValid = false := by simpa [State.accepts, State.inReady, hb, hr] using ha
  simp [step, clockEdge, hr, hp, hv]

end Sys2Proof.Machine

namespace Sys2Proof

open Sys2Proof.Machine

namespace HostRun

@[simp] theorem observe_core (b : Bool) (t : State) (r : HostRun) : (r.observe b t).core = t := rfl
@[simp] theorem observe_lastAccepted (b : Bool) (t : State) (r : HostRun) :
    (r.observe b t).lastAccepted =
      if r.core.pins.inValid then r.core.accepts else r.lastAccepted := rfl
@[simp] theorem observe_lastSampled (b : Bool) (t : State) (r : HostRun) :
    (r.observe b t).lastSampled = (r.hasSampled || (r.takes b t).isSome) := rfl
@[simp] theorem observe_record (b : Bool) (t : State) (r : HostRun) :
    (r.observe b t).record = r.record ++ (r.takes b t).toList := rfl

/-- Everything an edge of a run can do: the machine's step, observed. -/
theorem edge_cases {b : Bool} {r q : HostRun} (h : r.edge b = .next q) :
    ∃ t, step r.core = .next t ∧ q = r.observe b t := by
  unfold edge at h
  split at h
  · exact ⟨_, ‹_›, by simpa using h.symm⟩
  · cases h
  · cases h

/-- The first edge of a run, and the rest. -/
theorem edges_cons {b : Bool} {bs : List Bool} {r q : HostRun} (h : r.edges (b :: bs) = .next q) :
    ∃ r', r.edge b = .next r' ∧ r'.edges bs = .next q := by
  unfold edges at h
  split at h
  · exact ⟨_, ‹_›, h⟩
  · cases h
  · cases h

/-- The machine of a run is the machine run for as many edges: nothing the host records reaches it. -/
theorem edges_core (bs : List Bool) : ∀ r q : HostRun, r.edges bs = .next q →
    runEdges bs.length r.core = .next q.core := by
  induction bs with
  | nil => intro r q h; cases h; rfl
  | cons b bs ih =>
    intro r q h
    obtain ⟨r', he, hrest⟩ := edges_cons h
    obtain ⟨t, hs, rfl⟩ := edge_cases he
    rw [List.length_cons, runEdges, hs]
    exact ih _ q hrest

end HostRun

/-- One more edge without reset leaves an ended run ended, in the same end state (R265: the number of cycles
does not matter). -/
theorem runEnded_edge {r : HostRun} (h : RunEnded r) (hr : r.core.pins.rst = false) (b : Bool) :
    r.edge b = .next { r with core := r.core.advance } ∧
      RunEnded { r with core := r.core.advance } := by
  have hv : r.core.pins.inValid = false := by
    cases hh : r.core.host with
    | nil => simp [State.pins, hh, PortSample.idle]
    | cons p rest => simpa [State.pins, hh] using h.presentsNoMore p (by simp [hh])
  have ha : r.core.accepts = false := by simp [State.accepts, hv]
  have hs : r.hasSampled = true := by simp [HostRun.hasSampled, h.lastSampled, ha]
  refine ⟨?_, fun p hp => h.presentsNoMore p (List.mem_of_mem_tail hp), h.lastAccepted, h.notBusy,
    h.valid, h.lastSampled⟩
  simp [HostRun.edge, step_of_quiet hr h.notBusy ha, HostRun.observe, HostRun.takes, hs, hv,
    h.lastSampled]

/-- An ended run stays ended, in the same end state, for as long as the host does not reset. -/
theorem runEnded_edges (bs : List Bool) : ∀ r : HostRun, RunEnded r → NoReset bs.length r.core →
    ∃ q, r.edges bs = .next q ∧ RunEnded q ∧ endState q = endState r := by
  induction bs with
  | nil => exact fun r h _ => ⟨r, rfl, h, rfl⟩
  | cons b bs ih =>
    intro r h hn
    obtain ⟨hr, hrest⟩ := noReset_succ hn
    obtain ⟨he, hq⟩ := runEnded_edge h hr b
    obtain ⟨q, hq1, hq2, hq3⟩ := ih _ hq (hrest _ rfl)
    exact ⟨q, by rw [HostRun.edges, he]; exact hq1, hq2, hq3⟩

/-- What the host's record and the machine have to do with one another. -/
structure HostRun.Consistent (r : HostRun) : Prop where
  busyHidesResult : r.core.busy = true → r.core.valid = false
  /-- A command in progress has not been sampled. -/
  sampledNotBusy : r.lastSampled = true → r.core.busy = false
  /-- Once the latest accepted command is sampled, the record ends in what the port shows. -/
  recordsPort : r.lastSampled = true → r.core.valid = true →
    r.record.getLast? = some (r.core.outR, r.core.outX, r.core.outStatus)

/-- A run begins consistent. -/
theorem HostRun.start_consistent {s : State} (h : s.busy = true → s.valid = false) :
    (HostRun.start s).Consistent :=
  ⟨h, fun h => absurd h (by simp [HostRun.start]), fun h => absurd h (by simp [HostRun.start])⟩

/-- An edge that leads to `t` keeps a run consistent where it follows no sample of the latest command. -/
theorem HostRun.observe_consistent {r : HostRun} {t : State} (b : Bool)
    (ht : t.busy = true → t.valid = false) (hs : r.hasSampled = false) :
    (r.observe b t).Consistent := by
  have hv : (r.observe b t).lastSampled = true → b = true ∧ t.valid = true := by
    cases b <;> cases hv : t.valid <;> simp [takes, sample, State.outValid, hs, hv]
  refine ⟨ht, fun h => ?_, fun h _ => ?_⟩
  · cases hb : t.busy with
    | false => exact hb
    | true => exact absurd (hv h).2 (by simp [ht hb])
  · obtain ⟨rfl, hvalid⟩ := hv h
    simp [takes, sample, State.outValid, hs, hvalid]

/-- Every edge keeps a run consistent. -/
theorem HostRun.edge_consistent {r q : HostRun} (b : Bool) (h : r.Consistent)
    (he : r.edge b = .next q) : q.Consistent := by
  obtain ⟨t, hs, rfl⟩ := edge_cases he
  have hbusy : r.core.busy = true → r.hasSampled = false := fun hb => by
    have : r.lastSampled = false := by
      cases hl : r.lastSampled with
      | false => rfl
      | true => exact absurd hb (by simp [h.sampledNotBusy hl])
    simp [hasSampled, this]
  have done : ∀ (p : Pending) (u : State), complete p u = .next t → t.busy = false := fun p u hc => by
    obtain ⟨_, _, _, hc', -⟩ := complete_cases p u
    obtain rfl : _ = t := by simpa [hc'] using hc
    rfl
  obtain ⟨-, hn⟩ | ⟨-, p, hp, -, hn⟩ | ⟨-, p, hp, -, hn⟩ | ⟨hr, hp, hv, hn⟩ | ⟨hr, hp, hv, -, hn⟩ |
      ⟨hr, hp, hv, -, hn⟩ := step_cases r.core <;> rw [hs] at hn
  · obtain rfl : t = _ := by simpa using hn
    exact ⟨fun hb => absurd hb (by simp [State.busy]), fun _ => rfl, fun _ hv => absurd hv (by simp)⟩
  · exact observe_consistent b (fun hb => absurd hb (by simp [done _ _ hn.symm]))
      (hbusy (by simp [State.busy, hp]))
  · obtain rfl : t = _ := by simpa using hn
    have hb : r.core.busy = true := by simp [State.busy, hp]
    exact observe_consistent b (fun _ => h.busyHidesResult hb) (hbusy hb)
  · obtain rfl : t = _ := by simpa using hn
    cases hl : r.hasSampled with
    | false => exact observe_consistent b h.busyHidesResult hl
    | true =>
      have hls : r.lastSampled = true := by simp [hasSampled] at hl; exact hl.1
      refine ⟨h.busyHidesResult, fun _ => h.sampledNotBusy hls, fun _ hv => ?_⟩
      simpa [takes, hl, State.outR, State.outX, State.outStatus] using h.recordsPort hls hv
  · exact observe_consistent b (fun hb => absurd hb (by simp [done _ _ hn.symm]))
      (by simp [hasSampled, (accepts_iff r.core).2 ⟨hr, hp, hv⟩])
  · obtain rfl : t = _ := by simpa using hn
    exact observe_consistent b (fun _ => rfl)
      (by simp [hasSampled, (accepts_iff r.core).2 ⟨hr, hp, hv⟩])

/-- Every run that begins consistent is consistent. -/
theorem HostRun.edges_consistent (bs : List Bool) : ∀ r q : HostRun, r.Consistent →
    r.edges bs = .next q → q.Consistent := by
  induction bs with
  | nil => intro r q hc h; cases h; exact hc
  | cons b bs ih =>
    intro r q hc h
    obtain ⟨r', he, hrest⟩ := edges_cons h
    exact ih r' q (edge_consistent b hc he) hrest

/-- An ended run's record ends in the results of the last command, as the result port shows them. -/
theorem runEnded_record {r : HostRun} (h : RunEnded r) (hc : r.Consistent) :
    r.record.getLast? = some (r.core.outR, r.core.outX, r.core.outStatus) :=
  hc.recordsPort h.lastSampled h.valid

end Sys2Proof
end

