-- ==== Sys2Proof/Laws/Shift.lean ====
section
/-! SUPPORT. The shifter and rotator: one spec lemma for each function, in closed form or bit by bit. -/

namespace Sys2Proof.Machine

/-- Every branch of SHL is the wrapped product with a power of two (R130). -/
theorem shiftLeft_eq (x : Word) (k : Nat) : shiftLeft x k = w128 (uVal x * 2^k) := by
  unfold shiftLeft
  split
  · next h => subst h; simp [w128_uVal]
  · split
    · next h =>
      rw [w128_eq_iff]
      obtain ⟨m, rfl⟩ := Nat.exists_eq_add_of_le h
      rw [pow_add, ← mul_assoc, mul_comm (uVal x), mul_assoc, Int.mul_emod_right]; rfl
    · rfl

/-- Every branch of SHRU is the quotient by a power of two (R131). -/
theorem uVal_shiftRightLogical (x : Word) (k : Nat) : uVal (shiftRightLogical x k) = uVal x / 2^k := by
  have h0 := uVal_nonneg x
  have h1 := uVal_lt x
  unfold shiftRightLogical
  split
  · next h =>
    have : uVal x / 2^k = 0 :=
      Int.ediv_eq_zero_of_lt h0 (lt_of_lt_of_le h1 (by exact_mod_cast Nat.pow_le_pow_right (by norm_num) h))
    rw [this]; rfl
  · apply uVal_w128_of_range
    · positivity
    · exact le_trans (Int.ediv_le_self _ h0) (uVal_le_UMAX x)

/-- Bit 127 is the sign of the signed reading (R11). -/
theorem sign_bit (x : Word) : x.getLsbD 127 = decide (sVal x < 0) := by
  have h := BitVec.msb_eq_toInt (x := x)
  rw [BitVec.msb_eq_getLsbD_last] at h
  exact h

/-- Every branch of SHRS is the floored quotient by a power of two (R132). -/
theorem sVal_shiftRightArith (x : Word) (k : Nat) : sVal (shiftRightArith x k) = sVal x / 2^k := by
  have hb := sVal_bounds x
  unfold shiftRightArith
  simp only [SMIN, SMAX] at hb
  split
  · next h =>
    have h2 : (2:Int)^128 ≤ 2^k := by exact_mod_cast Nat.pow_le_pow_right (by norm_num) h
    by_cases hn : sVal x < 0
    · rw [sign_bit, if_pos (by simpa using hn)]
      have : sVal x / 2^k = -1 := by
        rw [Int.ediv_eq_iff_of_pos (by omega)]
        omega
      rw [this]; decide
    · rw [sign_bit, if_neg (by simpa using hn)]
      rw [Int.ediv_eq_zero_of_lt (by omega) (by omega)]
      decide
  · have hp : (0:Int) < 2^k := by positivity
    have h1 : (1:Int) ≤ 2^k := by omega
    apply sVal_w128_of_range
    · simp only [SMIN]
      rw [Int.le_ediv_iff_mul_le hp]
      have : (-2^127 : Int) * 2^k ≤ -2^127 * 1 := by nlinarith
      omega
    · simp only [SMAX]
      apply Int.le_of_lt_add_one
      rw [Int.ediv_lt_iff_lt_mul hp]
      have : (2^127 : Int) * 1 ≤ 2^127 * 2^k := by nlinarith
      omega

/-- The rotate amount is the operand modulo 128 (R87). -/
theorem rotateAmount_eq (b : Word) : rotateAmount b = b.toNat % 128 := by
  simp only [rotateAmount, BitVec.extractLsb'_toNat, Nat.shiftRight_zero]

/-- A left rotation moves bit `i` to bit `(i + n) mod 128` (R133). -/
theorem rotateLeftBy_bit (x : Word) (n i : Nat) (hn : n < 128) (hi : i < 128) :
    (rotateLeftBy x n).getLsbD ((i+n)%128) = x.getLsbD i := by
  simp only [rotateLeftBy, BitVec.getLsbD_or, BitVec.getLsbD_shiftLeft, BitVec.getLsbD_ushiftRight]
  by_cases h : i + n < 128
  · rw [Nat.mod_eq_of_lt h]
    have : ¬ (i+n < n) := by omega
    have e2 : x.getLsbD (128 - n + (i+n)) = false := BitVec.getLsbD_of_ge _ _ (by omega)
    simp [h, e2]
  · have e : (i+n)%128 = i+n-128 := by omega
    rw [e]
    have : i + n - 128 < n := by omega
    have e2 : 128 - n + (i + n - 128) = i := by omega
    simp [this, e2]

/-- A right rotation by `n` gives bit `(i + n) mod 128` at bit `i` (R134). -/
theorem rotateRightBy_bit (x : Word) (n i : Nat) (hn : n < 128) (hi : i < 128) :
    (rotateRightBy x n).getLsbD i = x.getLsbD ((i+n)%128) := by
  simp only [rotateRightBy, BitVec.getLsbD_or, BitVec.getLsbD_shiftLeft, BitVec.getLsbD_ushiftRight]
  by_cases h : i + n < 128
  · rw [Nat.mod_eq_of_lt h]
    have e1 : i < 128 - n := by omega
    simp [e1, Nat.add_comm]
  · have e : (i+n)%128 = i+n-128 := by omega
    rw [e]
    have e0 : ¬ i < 128 - n := by omega
    have e2 : x.getLsbD (n + i) = false := BitVec.getLsbD_of_ge _ _ (by omega)
    have e3 : i - (128 - n) = i + n - 128 := by omega
    simp [e0, e2, e3, hi]

/-- The pattern of a power of two below 2^128 reads as that power. -/
theorem uVal_two_pow (k : Nat) (h : k < 128) : uVal (w128 (2^k)) = 2^k := by
  apply uVal_w128_of_range (by positivity)
  have : (2:Int)^k ≤ 2^127 := by exact_mod_cast Nat.pow_le_pow_right (by norm_num) (by omega)
  simp only [UMAX]; omega

end Sys2Proof.Machine
end

