-- ==== Sys2Proof/Laws/Text.lean ====
section
/-! SUPPORT. The text of the assembler: a number in the form of 00_scope.md rule R10 is read back, and what
`trim` leaves alone. -/

namespace Sys2Proof.Machine

/-- A hexadecimal digit is read as its value. -/
theorem digitValue_hexDigit : ∀ n, n < 16 → digitValue (hexDigit n) = some n := by decide

/-- A character of no special meaning on a line: no blank, no separator, no `;` and no `,`. -/
def plainChar (c : Char) : Bool := !isBlank c && !isSeparator c && !(c = ';') && !(c = ',')

/-- What a plain character is not. -/
theorem plainChar_not (c : Char) (h : plainChar c = true) :
    isBlank c = false ∧ isSeparator c = false ∧ c ≠ ';' ∧ c ≠ ',' := by
  simpa [plainChar, and_assoc] using h

/-- Hexadecimal digits are plain characters. -/
theorem plainChar_hexDigit : ∀ n, n < 16 → plainChar (hexDigit n) = true := by decide

/-- Hexadecimal digits are plain characters. -/
theorem plainChar_hexDigits (k : Nat) : ∀ n, ∀ c ∈ hexDigits n k, plainChar c = true := by
  induction k with
  | zero => intro n c h; simp [hexDigits] at h
  | succ k ih =>
    intro n c h
    simp only [hexDigits, List.mem_append, List.mem_singleton] at h
    rcases h with h | h
    · exact ih _ _ h
    · rw [h]; exact plainChar_hexDigit _ (Nat.mod_lt _ (by omega))

/-- A number is printed with as many digits as asked for. -/
theorem hexDigits_length (k : Nat) : ∀ n, (hexDigits n k).length = k := by
  induction k with
  | zero => intro n; rfl
  | succ k ih => intro n; simp [hexDigits, ih]

/-- Digits are read from left to right. -/
theorem digitsFrom_append (base : Nat) (xs ys : List Char) : ∀ acc m, digitsFrom base acc xs = some m →
    digitsFrom base acc (xs ++ ys) = digitsFrom base m ys := by
  induction xs with
  | nil => intro acc m h; cases h; rfl
  | cons c cs ih =>
    intro acc m h
    simp only [digitsFrom, List.cons_append] at h ⊢
    split at h
    · split at h
      · rename_i hd
        rw [if_pos hd]; exact ih _ _ h
      · cases h
    · cases h

/-- Printed digits are read back as the number. -/
theorem digitsFrom_hexDigits (k : Nat) : ∀ n acc, n < 16 ^ k →
    digitsFrom 16 acc (hexDigits n k) = some (acc * 16 ^ k + n) := by
  induction k with
  | zero => intro n acc h; simp [hexDigits, digitsFrom] at *; omega
  | succ k ih =>
    intro n acc h
    have h1 : n / 16 < 16 ^ k := by rw [Nat.pow_succ] at h; omega
    rw [hexDigits, digitsFrom_append 16 _ _ acc _ (ih _ _ h1)]
    have hm : n % 16 < 16 := Nat.mod_lt n (by omega)
    simp only [digitsFrom, digitValue_hexDigit _ hm, if_pos hm]
    congr 1
    rw [Nat.pow_succ]
    have : n / 16 * 16 + n % 16 = n := by omega
    generalize 16 ^ k = z at *
    nlinarith

/-- A number that begins with `0x` is hexadecimal. -/
theorem parseNumber_0x (cs : List Char) :
    parseNumber ('0' :: 'x' :: cs) = (parseDigits 16 cs).map fun n => (n : Int) := rfl

/-- A value in the form of R10 is read back as its unsigned reading. -/
theorem parseNumber_hexForm (v : Word) : parseNumber (hexForm v) = some (v.toNat : Int) := by
  have hv := v.isLt
  have : parseDigits 16 (hexDigits (v.toNat / 2 ^ 64) 16 ++ '_' :: hexDigits (v.toNat % 2 ^ 64) 16) =
      some v.toNat := by
    unfold parseDigits
    have hh := plainChar_hexDigits 16 (v.toNat / 2 ^ 64)
    have hl := plainChar_hexDigits 16 (v.toNat % 2 ^ 64)
    have eh := hexDigits_length 16 (v.toNat / 2 ^ 64)
    have el := hexDigits_length 16 (v.toNat % 2 ^ 64)
    have dh := digitsFrom_hexDigits 16 (v.toNat / 2 ^ 64) 0 (by omega)
    have dl := digitsFrom_hexDigits 16 (v.toNat % 2 ^ 64) (v.toNat / 2 ^ 64) (by omega)
    generalize hexDigits (v.toNat / 2 ^ 64) 16 = H at *
    generalize hexDigits (v.toNat % 2 ^ 64) 16 = L at *
    have hfil : (H ++ '_' :: L).filter (fun x => !isSeparator x) = H ++ L := by
      rw [List.filter_append, List.filter_cons_of_neg (by decide)]
      rw [List.filter_eq_self.2 (fun x hx => by simp [(plainChar_not x (hh x hx)).2.1])]
      rw [List.filter_eq_self.2 (fun x hx => by simp [(plainChar_not x (hl x hx)).2.1])]
    obtain ⟨c, cs, rfl⟩ := List.exists_cons_of_length_eq_add_one eh
    obtain ⟨ds, d, rfl⟩ : ∃ ds d, L = ds ++ [d] := by
      rcases List.eq_nil_or_concat L with h | ⟨ds, d, h⟩
      · rw [h] at el; cases el
      · exact ⟨ds, d, by rw [h, List.concat_eq_append]⟩
    have hc := (plainChar_not c (hh c (by simp))).2.1
    have hd := (plainChar_not d (hl d (by simp))).2.1
    have h1 : ((c :: cs) ++ '_' :: (ds ++ [d])).head? = some c := rfl
    have h2 : ((c :: cs) ++ '_' :: (ds ++ [d])).getLast? = some d := by
      rw [show (c :: cs) ++ '_' :: (ds ++ [d]) = ((c :: cs) ++ '_' :: ds) ++ [d] by simp]
      exact List.getLast?_concat
    rw [h1, h2]
    simp only [hc, hd, Bool.or_self, Bool.false_eq_true, if_false]
    rw [hfil]
    rw [digitsFrom_append 16 _ _ 0 _ dh]
    rw [Nat.zero_mul, Nat.zero_add, dl]
    congr 1; omega
  unfold hexForm
  rw [List.cons_append, List.cons_append, parseNumber_0x, this]; rfl

/-- The unsigned reading of a field is a literal that gives the field back (R93). -/
theorem literalField_toNat (v : Word) : literalField (v.toNat : Int) = .ok v := by
  have := v.isLt
  unfold literalField
  rw [if_pos (by simp only [SMIN, UMAX]; omega)]
  congr 1
  exact w128_uVal v

/-- A blank at the front is dropped. -/
theorem trim_blank (cs : List Char) : trim (' ' :: cs) = trim cs := by
  unfold trim; rw [List.dropWhile_cons_of_pos (by decide)]

/-- Text with no blank at its ends is left alone. -/
theorem trim_eq_self (c d : Char) (cs : List Char) (hc : isBlank c = false) (hd : isBlank d = false) :
    trim (c :: (cs ++ [d])) = c :: (cs ++ [d]) := by
  unfold trim
  rw [List.dropWhile_cons_of_neg (by simp [hc])]
  rw [show (c :: (cs ++ [d])).reverse = d :: (cs.reverse ++ [c]) by simp]
  rw [List.dropWhile_cons_of_neg (by simp [hd])]
  simp

end Sys2Proof.Machine
end

