-- ==== Sys2Proof/Tests/Slice0.lean ====
section
/-! SUPPORT. The model's own tests. Expected results are those of spec/95_test_vectors.md (the section is
cited) or are written out from the encoding rules. After them stands, for every statement with hypotheses,
a state and operands that meet them. -/

namespace Sys2Proof.Tests

open Sys2Proof Sys2Proof.Machine

/-! ### Helpers -/

/-- The next state of an outcome. -/
def nextState : Host.Outcome State Fault Refusal → Option State
  | .next t => some t
  | .fault _ => none
  | .refused _ => none

/-- What the host samples after one edge at which the command `op, a, b` is presented and takes no time. -/
def runWord (op : BitVec 8) (a b : Word) (s : State) : Option (Word × Word × BitVec 3) :=
  (nextState (step (s.presentNext ⟨op, a, b⟩))).bind sample

/-- The start state of L2.7 and L2.8. -/
def fiveSeven : State := { State.reset with res0 := 5, res1 := 7, valid := true }

/-- The timing that L2.10 takes for illustration: 3 cycles for DIVU and none for ADD. -/
def illustration : Timing := ⟨3, [⟨0x0C, none, 3⟩, ⟨0x01, none, 0⟩]⟩

/-- The port values of edges 2 to 5 of L2.10. -/
def presentsAdd : PortSample := ⟨false, true, 0x41, 0, 1⟩

/-- L2.10 before its edge 1: idle, DIVU 100, 7 presented. -/
def beforeDivu : State :=
  { State.reset with host := [⟨false, true, 0x0C, 100, 7⟩, presentsAdd], timing := illustration }

/-- L2.10 with the DIVU in progress, `left` edges before its completion. -/
def duringDivu (left : Nat) : State :=
  { State.reset with
    pending := some ⟨0x0C, 100, 7, left⟩, host := [presentsAdd], timing := illustration }

/-! ### Well-formedness: each check refuses an ill-formed command -/

theorem test_wf_selected_a_with_bits :
    (Instr.add ⟨true, 1⟩ (.lit 0)).wellFormed = false ∧ (Instr.add .res (.lit 0)).wellFormed = true := by
  decide
theorem test_wf_selected_b_with_bits :
    (Instr.add (.lit 0) ⟨true, 1⟩).wellFormed = false ∧ (Instr.add (.lit 0) .res).wellFormed = true := by
  decide
theorem test_wf_unary_with_b :
    (Instr.clz (.lit 1) (.lit 2)).wellFormed = false ∧ (Instr.clz (.lit 1) .res).wellFormed = false ∧
      (Instr.clz (.lit 1) (.lit 0)).wellFormed = true := by decide

/-! ### Decoding: words written out from R81 (`BAFFFFFF`) and R82, one for every command -/

theorem test_decode_add_compare :
    decode ⟨0b11000000, 1, 2⟩ = .ok (.pass ⟨true, 1⟩ ⟨true, 2⟩) ∧
    decode ⟨0b01000001, 1, 2⟩ = .ok (.add ⟨true, 1⟩ ⟨false, 2⟩) ∧
    decode ⟨0b10000010, 1, 2⟩ = .ok (.sub ⟨false, 1⟩ ⟨true, 2⟩) ∧
    decode ⟨0b01000011, 1, 2⟩ = .ok (.neg ⟨true, 1⟩ ⟨false, 2⟩) ∧
    decode ⟨0b00000100, 1, 2⟩ = .ok (.cmpu ⟨false, 1⟩ ⟨false, 2⟩) ∧
    decode ⟨0b10000101, 1, 2⟩ = .ok (.cmps ⟨false, 1⟩ ⟨true, 2⟩) := by decide
theorem test_decode_multiply :
    decode ⟨0b01001000, 1, 2⟩ = .ok (.mul ⟨true, 1⟩ ⟨false, 2⟩) ∧
    decode ⟨0b10001001, 1, 2⟩ = .ok (.mulw ⟨false, 1⟩ ⟨true, 2⟩) := by decide
theorem test_decode_divide :
    decode ⟨0b10001100, 1, 2⟩ = .ok (.divu ⟨false, 1⟩ ⟨true, 2⟩) ∧
    decode ⟨0b01001101, 1, 2⟩ = .ok (.divs ⟨true, 1⟩ ⟨false, 2⟩) := by decide
theorem test_decode_shift_rotate :
    decode ⟨0b00010000, 1, 2⟩ = .ok (.shl ⟨false, 1⟩ ⟨false, 2⟩) ∧
    decode ⟨0b01010001, 1, 2⟩ = .ok (.shru ⟨true, 1⟩ ⟨false, 2⟩) ∧
    decode ⟨0b10010010, 1, 2⟩ = .ok (.shrs ⟨false, 1⟩ ⟨true, 2⟩) ∧
    decode ⟨0b11010011, 1, 2⟩ = .ok (.rol ⟨true, 1⟩ ⟨true, 2⟩) ∧
    decode ⟨0b01010100, 1, 2⟩ = .ok (.ror ⟨true, 1⟩ ⟨false, 2⟩) := by decide
theorem test_decode_bit_count :
    decode ⟨0b11011000, 1, 2⟩ = .ok (.popcnt ⟨true, 1⟩ ⟨true, 2⟩) ∧
    decode ⟨0b00011001, 1, 2⟩ = .ok (.clz ⟨false, 1⟩ ⟨false, 2⟩) ∧
    decode ⟨0b01011010, 1, 2⟩ = .ok (.ctz ⟨true, 1⟩ ⟨false, 2⟩) ∧
    decode ⟨0b10011011, 1, 2⟩ = .ok (.clo ⟨false, 1⟩ ⟨true, 2⟩) ∧
    decode ⟨0b01011100, 1, 2⟩ = .ok (.cto ⟨true, 1⟩ ⟨false, 2⟩) ∧
    decode ⟨0b00011101, 1, 2⟩ = .ok (.bitwidth ⟨false, 1⟩ ⟨false, 2⟩) ∧
    decode ⟨0b01011110, 1, 2⟩ = .ok (.ffs ⟨true, 1⟩ ⟨false, 2⟩) ∧
    decode ⟨0b10011111, 1, 2⟩ = .ok (.fls ⟨false, 1⟩ ⟨true, 2⟩) := by decide
theorem test_decode_checked :
    decode ⟨0b01100000, 1, 2⟩ = .ok (.caddu ⟨true, 1⟩ ⟨false, 2⟩) ∧
    decode ⟨0b10100001, 1, 2⟩ = .ok (.cadds ⟨false, 1⟩ ⟨true, 2⟩) ∧
    decode ⟨0b11100010, 1, 2⟩ = .ok (.csubu ⟨true, 1⟩ ⟨true, 2⟩) ∧
    decode ⟨0b00100011, 1, 2⟩ = .ok (.csubs ⟨false, 1⟩ ⟨false, 2⟩) ∧
    decode ⟨0b01100100, 1, 2⟩ = .ok (.cmulu ⟨true, 1⟩ ⟨false, 2⟩) ∧
    decode ⟨0b10100101, 1, 2⟩ = .ok (.cmuls ⟨false, 1⟩ ⟨true, 2⟩) ∧
    decode ⟨0b11100110, 1, 2⟩ = .ok (.cdivu ⟨true, 1⟩ ⟨true, 2⟩) ∧
    decode ⟨0b00100111, 1, 2⟩ = .ok (.cdivs ⟨false, 1⟩ ⟨false, 2⟩) := by decide
theorem test_decode_saturating :
    decode ⟨0b01101000, 1, 2⟩ = .ok (.sataddu ⟨true, 1⟩ ⟨false, 2⟩) ∧
    decode ⟨0b10101001, 1, 2⟩ = .ok (.satadds ⟨false, 1⟩ ⟨true, 2⟩) ∧
    decode ⟨0b11101010, 1, 2⟩ = .ok (.satsubu ⟨true, 1⟩ ⟨true, 2⟩) ∧
    decode ⟨0b00101011, 1, 2⟩ = .ok (.satsubs ⟨false, 1⟩ ⟨false, 2⟩) := by decide

/-- R90: the edges of the reserved ranges. -/
theorem test_decode_reserved :
    decode ⟨0b00000110, 1, 2⟩ = .error (.reservedFunc 0b000110) ∧
    decode ⟨0b01010111, 1, 2⟩ = .error (.reservedFunc 0b010111) ∧
    decode ⟨0b10101100, 1, 2⟩ = .error (.reservedFunc 0b101100) ∧
    decode ⟨0b11111111, 1, 2⟩ = .error (.reservedFunc 0b111111) := by decide

/-- The table numbers the opcode byte alone; the fields above it are zeros (assumption 5). -/
theorem test_decode_table_word :
    decodeTableWord 8 0x4C = some (.divu ⟨true, 0⟩ ⟨false, 0⟩) ∧ decodeTableWord 8 0x3F = none ∧
    decodeTableWord 136 0x0501 = some (.add ⟨false, 5⟩ ⟨false, 0⟩) ∧
    decodeTableWord 264 (0x0501 + 7 * 2 ^ 136) = some (.add ⟨false, 5⟩ ⟨false, 7⟩) ∧
    decodeTableWord 8 (0x0501 + 7 * 2 ^ 136) = some (.add ⟨false, 0⟩ ⟨false, 0⟩) := by decide

/-- The fetch word runs at the very next edge, from reset and from a busy core alike. -/
theorem test_fetch_word_runs :
    (nextState (step (State.reset.withFetchWord 136 0x0501))).bind sample = some (5, 0, 0) ∧
    (nextState (step ((duringDivu 2).withFetchWord 136 0x0501))).bind sample = some (5, 0, 0) := by decide

/-! ### Every command: at most two vectors of L2.1 to L2.7 -/

/-- L2.1: `PASS #0x0123456789ABCDEF_FEDCBA9876543210, #-1`. -/
theorem test_pass_both_fields :
    runWord 0x00 0x0123456789ABCDEFFEDCBA9876543210 0xFFFFFFFFFFFFFFFFFFFFFFFFFFFFFFFF .reset =
      some (0x0123456789ABCDEFFEDCBA9876543210, 0xFFFFFFFFFFFFFFFFFFFFFFFFFFFFFFFF, 0) := by decide
/-- L2.7: `PASS R0, #9`. -/
theorem test_pass_r0_field : runWord 0x40 0 9 fiveSeven = some (5, 9, 0) := by decide
/-- L2.1: `ADD #0x0123456789ABCDEF_FEDCBA9876543210, #0x0FEDCBA987654321_0123456789ABCDF0`. -/
theorem test_add_carries_to_high_word :
    runWord 0x01 0x0123456789ABCDEFFEDCBA9876543210 0x0FEDCBA9876543210123456789ABCDF0 .reset =
      some (0x11111111111111110000000000000000, 0, 0) := by decide
/-- L2.7: `ADD R0, R1`. -/
theorem test_add_reads_both_registers : runWord 0xC1 0 0 fiveSeven = some (12, 7, 0) := by decide
/-- L2.1: `SUB #0x0000000000000001_0000000000000000, #1`. -/
theorem test_sub_borrows_from_high_word : runWord 0x02 0x00000000000000010000000000000000 1 .reset =
    some (0x0000000000000000FFFFFFFFFFFFFFFF, 0, 0) := by decide
/-- L2.7: `SUB #100, R1`. -/
theorem test_sub_reads_res1 : runWord 0x82 100 0 fiveSeven = some (93, 7, 0) := by decide
/-- L2.1: `NEG #0x0000000000000001_0000000000000000`. -/
theorem test_neg_of_low_word_zero : runWord 0x03 0x00000000000000010000000000000000 0 .reset =
    some (0xFFFFFFFFFFFFFFFF0000000000000000, 0, 0) := by decide
/-- L2.7: `NEG R0`. -/
theorem test_neg_reads_res0 : runWord 0x43 0 0 fiveSeven =
    some (0xFFFFFFFFFFFFFFFFFFFFFFFFFFFFFFFB, 7, 0) := by decide
/-- L2.1: `CMPU #0x0000000000000001_0000000000000000, #0x0000000000000000_FFFFFFFFFFFFFFFF`. -/
theorem test_cmpu_high_word_decides :
    runWord 0x04 0x00000000000000010000000000000000 0x0000000000000000FFFFFFFFFFFFFFFF .reset =
      some (1, 0, 0) := by decide
/-- L2.7: `CMPU R0, R1`. -/
theorem test_cmpu_reads_both_registers : runWord 0xC4 0 0 fiveSeven =
    some (0xFFFFFFFFFFFFFFFFFFFFFFFFFFFFFFFF, 7, 0) := by decide
/-- L2.1: `CMPS #-1, #1`. -/
theorem test_cmps_negative_below_positive : runWord 0x05 0xFFFFFFFFFFFFFFFFFFFFFFFFFFFFFFFF 1 .reset =
    some (0xFFFFFFFFFFFFFFFFFFFFFFFFFFFFFFFF, 0, 0) := by decide
/-- L2.1: `CMPS #0xFFFFFFFFFFFFFFFF_0000000000000000, #0xFFFFFFFFFFFFFFFF_0000000000000001`. -/
theorem test_cmps_low_word_breaks_tie :
    runWord 0x05 0xFFFFFFFFFFFFFFFF0000000000000000 0xFFFFFFFFFFFFFFFF0000000000000001 .reset =
      some (0xFFFFFFFFFFFFFFFFFFFFFFFFFFFFFFFF, 0, 0) := by decide
/-- L2.2: `MUL #0x0123456789ABCDEF_0011223344556677, #0x00000000DEADBEEF_CAFEBABE12345678`. -/
theorem test_mul_wraps :
    runWord 0x08 0x0123456789ABCDEF0011223344556677 0x00000000DEADBEEFCAFEBABE12345678 .reset =
      some (0x0629A6B962CFD651AAA3A5DBE6A001C8, 0, 0) := by decide
/-- L2.7: `MUL R0, R1`. -/
theorem test_mul_reads_both_registers : runWord 0xC8 0 0 fiveSeven = some (35, 7, 0) := by decide
/-- L2.2: `MULW #0x0000000000000001_0000000000000002, #3`. -/
theorem test_mulw_ignores_high_words : runWord 0x09 0x00000000000000010000000000000002 3 .reset =
    some (6, 0, 0) := by decide
/-- L2.2: `MULW #-1, #-1`. -/
theorem test_mulw_of_all_ones :
    runWord 0x09 0xFFFFFFFFFFFFFFFFFFFFFFFFFFFFFFFF 0xFFFFFFFFFFFFFFFFFFFFFFFFFFFFFFFF .reset =
      some (0xFFFFFFFFFFFFFFFE0000000000000001, 0, 0) := by decide
/-- L2.4: `DIVU #-1, #10`. -/
theorem test_divu_by_ten : runWord 0x0C 0xFFFFFFFFFFFFFFFFFFFFFFFFFFFFFFFF 10 .reset =
    some (0x19999999999999999999999999999999, 5, 0) := by decide
/-- L2.7: `DIVU #100, R1`. -/
theorem test_divu_reads_res1 : runWord 0x8C 100 0 fiveSeven = some (14, 2, 0) := by decide
/-- L2.4: `DIVS #0x8000000000000000_0000000000000000, #3`. -/
theorem test_divs_truncates : runWord 0x0D 0x80000000000000000000000000000000 3 .reset =
    some (0xD5555555555555555555555555555556, 0xFFFFFFFFFFFFFFFFFFFFFFFFFFFFFFFE, 0) := by decide
/-- L2.4: `DIVS #0x8000000000000000_0000000000000000, #-1`. -/
theorem test_divs_smin_by_minus_one :
    runWord 0x0D 0x80000000000000000000000000000000 0xFFFFFFFFFFFFFFFFFFFFFFFFFFFFFFFF .reset =
      some (0x80000000000000000000000000000000, 0, 0) := by decide
/-- L2.3: `SHL #0x0123456789ABCDEF_FEDCBA9876543210, #100`. -/
theorem test_shl_by_100 : runWord 0x10 0x0123456789ABCDEFFEDCBA9876543210 100 .reset =
    some (0x65432100000000000000000000000000, 0, 0) := by decide
/-- L2.3: `SHL #-1, #0x0000000000000001_0000000000000000`. -/
theorem test_shl_by_two_pow_64 :
    runWord 0x10 0xFFFFFFFFFFFFFFFFFFFFFFFFFFFFFFFF 0x00000000000000010000000000000000 .reset =
      some (0, 0, 0) := by decide
/-- L2.3: `SHRU #0x0000000000000001_0000000000000000, #1`. -/
theorem test_shru_crosses_words : runWord 0x11 0x00000000000000010000000000000000 1 .reset =
    some (0x00000000000000008000000000000000, 0, 0) := by decide
/-- L2.3: `SHRU #-1, #128`. -/
theorem test_shru_by_128 : runWord 0x11 0xFFFFFFFFFFFFFFFFFFFFFFFFFFFFFFFF 128 .reset =
    some (0, 0, 0) := by decide
/-- L2.3: `SHRS #-3, #1`. -/
theorem test_shrs_floors : runWord 0x12 0xFFFFFFFFFFFFFFFFFFFFFFFFFFFFFFFD 1 .reset =
    some (0xFFFFFFFFFFFFFFFFFFFFFFFFFFFFFFFE, 0, 0) := by decide
/-- L2.3: `SHRS #0x8000000000000000_0000000000000000, #200`. -/
theorem test_shrs_saturates_to_sign : runWord 0x12 0x80000000000000000000000000000000 200 .reset =
    some (0xFFFFFFFFFFFFFFFFFFFFFFFFFFFFFFFF, 0, 0) := by decide
/-- L2.3: `ROL #1, #0x0000000000000001_0000000000000005`. -/
theorem test_rol_reads_seven_bits : runWord 0x13 1 0x00000000000000010000000000000005 .reset =
    some (32, 0, 0) := by decide
/-- L2.3: `ROL #0x8000000000000000_0000000000000001, #129`. -/
theorem test_rol_by_129 : runWord 0x13 0x80000000000000000000000000000001 129 .reset =
    some (3, 0, 0) := by decide
/-- L2.3: `ROR #0x0123456789ABCDEF_FEDCBA9876543210, #4`. -/
theorem test_ror_by_4 : runWord 0x14 0x0123456789ABCDEFFEDCBA9876543210 4 .reset =
    some (0x00123456789ABCDEFFEDCBA987654321, 0, 0) := by decide
/-- L2.3: `ROR #3, #-1`. -/
theorem test_ror_by_127 : runWord 0x14 3 0xFFFFFFFFFFFFFFFFFFFFFFFFFFFFFFFF .reset =
    some (6, 0, 0) := by decide
/-- L2.5: `POPCNT #0x0123456789ABCDEF_FEDCBA9876543210`. -/
theorem test_popcnt_of_half : runWord 0x18 0x0123456789ABCDEFFEDCBA9876543210 0 .reset =
    some (64, 0, 0) := by decide
/-- L2.7: `.cmd 0xD8, 0x1234, 0x5678`. -/
theorem test_popcnt_bsel_has_no_effect :
    runWord 0xD8 0x00000000000000000000000000001234 0x00000000000000000000000000005678 fiveSeven =
      some (2, 7, 0) := by decide
/-- L2.5: `CLZ #0`. -/
theorem test_clz_of_zero : runWord 0x19 0 0 .reset = some (128, 0, 0) := by decide
/-- L2.5: `CLZ #0x0000000000000000_0000000000000100`. -/
theorem test_clz_of_256 : runWord 0x19 256 0 .reset = some (119, 0, 0) := by decide
/-- L2.5: `CTZ #0`. -/
theorem test_ctz_of_zero : runWord 0x1A 0 0 .reset = some (128, 0, 0) := by decide
/-- L2.5: `CTZ #0x0000000000000001_0000000000000000`. -/
theorem test_ctz_of_two_pow_64 : runWord 0x1A 0x00000000000000010000000000000000 0 .reset =
    some (64, 0, 0) := by decide
/-- L2.5: `CLO #-1`. -/
theorem test_clo_of_ones : runWord 0x1B 0xFFFFFFFFFFFFFFFFFFFFFFFFFFFFFFFF 0 .reset =
    some (128, 0, 0) := by decide
/-- L2.5: `CLO #0xFFFFFFFFFFFFFFFF_8000000000000000`. -/
theorem test_clo_crosses_words : runWord 0x1B 0xFFFFFFFFFFFFFFFF8000000000000000 0 .reset =
    some (65, 0, 0) := by decide
/-- L2.5: `CTO #-1`. -/
theorem test_cto_of_ones : runWord 0x1C 0xFFFFFFFFFFFFFFFFFFFFFFFFFFFFFFFF 0 .reset =
    some (128, 0, 0) := by decide
/-- L2.5: `CTO #0x0000000000000001_FFFFFFFFFFFFFFFF`. -/
theorem test_cto_crosses_words : runWord 0x1C 0x0000000000000001FFFFFFFFFFFFFFFF 0 .reset =
    some (65, 0, 0) := by decide
/-- L2.5: `BITWIDTH #256`. -/
theorem test_bitwidth_of_256 : runWord 0x1D 256 0 .reset = some (9, 0, 0) := by decide
/-- L2.5: `BITWIDTH #-1`. -/
theorem test_bitwidth_of_ones : runWord 0x1D 0xFFFFFFFFFFFFFFFFFFFFFFFFFFFFFFFF 0 .reset =
    some (128, 0, 0) := by decide
/-- L2.5: `FFS #0`. -/
theorem test_ffs_of_zero : runWord 0x1E 0 0 .reset =
    some (0xFFFFFFFFFFFFFFFFFFFFFFFFFFFFFFFF, 0, 0) := by decide
/-- L2.5: `FFS #0x0000000000000001_0000000000000000`. -/
theorem test_ffs_of_two_pow_64 : runWord 0x1E 0x00000000000000010000000000000000 0 .reset =
    some (64, 0, 0) := by decide
/-- L2.5: `FLS #0`. -/
theorem test_fls_of_zero : runWord 0x1F 0 0 .reset =
    some (0xFFFFFFFFFFFFFFFFFFFFFFFFFFFFFFFF, 0, 0) := by decide
/-- L2.5: `FLS #0x0000000000000000_0000000000000100`. -/
theorem test_fls_of_256 : runWord 0x1F 256 0 .reset = some (8, 0, 0) := by decide
/-- L2.6: `CADDU #-1, #0`. -/
theorem test_caddu_at_umax : runWord 0x20 0xFFFFFFFFFFFFFFFFFFFFFFFFFFFFFFFF 0 .reset =
    some (0xFFFFFFFFFFFFFFFFFFFFFFFFFFFFFFFF, 0, 0) := by decide
/-- L2.6: `CADDU #-1, #1`. -/
theorem test_caddu_past_umax : runWord 0x20 0xFFFFFFFFFFFFFFFFFFFFFFFFFFFFFFFF 1 .reset =
    some (0, 0, 1) := by decide
/-- L2.6: `CADDS #0x8000000000000000_0000000000000000, #-1`. -/
theorem test_cadds_below_smin :
    runWord 0x21 0x80000000000000000000000000000000 0xFFFFFFFFFFFFFFFFFFFFFFFFFFFFFFFF .reset =
      some (0, 0, 2) := by decide
/-- L2.6: `CADDS #-1, #1`. -/
theorem test_cadds_of_opposite_signs : runWord 0x21 0xFFFFFFFFFFFFFFFFFFFFFFFFFFFFFFFF 1 .reset =
    some (0, 0, 0) := by decide
/-- L2.6: `CSUBU #-1, #-1`. -/
theorem test_csubu_to_zero :
    runWord 0x22 0xFFFFFFFFFFFFFFFFFFFFFFFFFFFFFFFF 0xFFFFFFFFFFFFFFFFFFFFFFFFFFFFFFFF .reset =
      some (0, 0, 0) := by decide
/-- L2.7: `CSUBU R0, R1`. -/
theorem test_csubu_below_zero : runWord 0xE2 0 0 fiveSeven = some (0, 7, 2) := by decide
/-- L2.6: `CSUBS #-1, #0x7FFFFFFFFFFFFFFF_FFFFFFFFFFFFFFFF`. -/
theorem test_csubs_at_smin :
    runWord 0x23 0xFFFFFFFFFFFFFFFFFFFFFFFFFFFFFFFF 0x7FFFFFFFFFFFFFFFFFFFFFFFFFFFFFFF .reset =
      some (0x80000000000000000000000000000000, 0, 0) := by decide
/-- L2.6: `CSUBS #0x7FFFFFFFFFFFFFFF_FFFFFFFFFFFFFFFF, #-1`. -/
theorem test_csubs_past_smax :
    runWord 0x23 0x7FFFFFFFFFFFFFFFFFFFFFFFFFFFFFFF 0xFFFFFFFFFFFFFFFFFFFFFFFFFFFFFFFF .reset =
      some (0, 0, 1) := by decide
/-- L2.6: `CMULU #3, #0x5555555555555555_5555555555555555`. -/
theorem test_cmulu_at_umax : runWord 0x24 3 0x55555555555555555555555555555555 .reset =
    some (0xFFFFFFFFFFFFFFFFFFFFFFFFFFFFFFFF, 0, 0) := by decide
/-- L2.6: `CMULU #3, #0x5555555555555555_5555555555555556`. -/
theorem test_cmulu_past_umax : runWord 0x24 3 0x55555555555555555555555555555556 .reset =
    some (0, 0, 1) := by decide
/-- L2.6: `CMULS #0xFFFFFFFFFFFFFFFF_0000000000000000, #0x8000000000000000`. -/
theorem test_cmuls_at_smin :
    runWord 0x25 0xFFFFFFFFFFFFFFFF0000000000000000 0x00000000000000008000000000000000 .reset =
      some (0x80000000000000000000000000000000, 0, 0) := by decide
/-- L2.6: `CMULS #0xFFFFFFFFFFFFFFFF_0000000000000000, #0x8000000000000001`. -/
theorem test_cmuls_below_smin :
    runWord 0x25 0xFFFFFFFFFFFFFFFF0000000000000000 0x00000000000000008000000000000001 .reset =
      some (0, 0, 2) := by decide
/-- L2.6: `CDIVU #100, #0`. -/
theorem test_cdivu_by_zero : runWord 0x26 100 0 .reset = some (0, 0, 3) := by decide
/-- L2.7: `CDIVU R0, R1`. -/
theorem test_cdivu_reads_both_registers : runWord 0xE6 0 0 fiveSeven = some (0, 5, 0) := by decide
/-- L2.6: `CDIVS #-7, #2`. -/
theorem test_cdivs_truncates : runWord 0x27 0xFFFFFFFFFFFFFFFFFFFFFFFFFFFFFFF9 2 .reset =
    some (0xFFFFFFFFFFFFFFFFFFFFFFFFFFFFFFFD, 0xFFFFFFFFFFFFFFFFFFFFFFFFFFFFFFFF, 0) := by decide
/-- L2.6: `CDIVS #0x8000000000000000_0000000000000000, #-1`. -/
theorem test_cdivs_smin_by_minus_one :
    runWord 0x27 0x80000000000000000000000000000000 0xFFFFFFFFFFFFFFFFFFFFFFFFFFFFFFFF .reset =
      some (0, 0, 1) := by decide
/-- L2.6: `SATADDU #2, #3`. -/
theorem test_sataddu_in_range : runWord 0x28 2 3 .reset = some (5, 0, 0) := by decide
/-- L2.6: `SATADDU #-1, #1`. -/
theorem test_sataddu_clamps : runWord 0x28 0xFFFFFFFFFFFFFFFFFFFFFFFFFFFFFFFF 1 .reset =
    some (0xFFFFFFFFFFFFFFFFFFFFFFFFFFFFFFFF, 0, 0) := by decide
/-- L2.6: `SATADDS #0x8000000000000000_0000000000000000, #-1`. -/
theorem test_satadds_clamps :
    runWord 0x29 0x80000000000000000000000000000000 0xFFFFFFFFFFFFFFFFFFFFFFFFFFFFFFFF .reset =
      some (0x80000000000000000000000000000000, 0, 0) := by decide
/-- L2.6: `SATADDS #-2, #-3`. -/
theorem test_satadds_in_range :
    runWord 0x29 0xFFFFFFFFFFFFFFFFFFFFFFFFFFFFFFFE 0xFFFFFFFFFFFFFFFFFFFFFFFFFFFFFFFD .reset =
      some (0xFFFFFFFFFFFFFFFFFFFFFFFFFFFFFFFB, 0, 0) := by decide
/-- L2.6: `SATSUBU #7, #5`. -/
theorem test_satsubu_in_range : runWord 0x2A 7 5 .reset = some (2, 0, 0) := by decide
/-- L2.6: `SATSUBU #5, #7`. -/
theorem test_satsubu_clamps : runWord 0x2A 5 7 .reset = some (0, 0, 0) := by decide
/-- L2.6: `SATSUBS #0, #0x8000000000000000_0000000000000000`. -/
theorem test_satsubs_clamps : runWord 0x2B 0 0x80000000000000000000000000000000 .reset =
    some (0x7FFFFFFFFFFFFFFFFFFFFFFFFFFFFFFF, 0, 0) := by decide
/-- L2.6: `SATSUBS #3, #5`. -/
theorem test_satsubs_in_range : runWord 0x2B 3 5 .reset =
    some (0xFFFFFFFFFFFFFFFFFFFFFFFFFFFFFFFE, 0, 0) := by decide

/-! ### Reserved FUNC values (L2.8), reset and handshake (L2.10): single edges -/

theorem test_reserved_reports_illegal_op : runWord 0x2C 1 2 fiveSeven = some (5, 7, 7) := by decide
theorem test_reserved_ignores_select_bits : runWord 0xFF 1 2 fiveSeven = some (5, 7, 7) := by decide

/-- L2.10 edge 1: acceptance. -/
theorem test_edge_accepts :
    nextState (step beforeDivu) = some { duringDivu 3 with valid := false } := by decide
/-- L2.10 edges 2 and 3: the presented ADD is not accepted. -/
theorem test_edge_waits :
    nextState (step (duringDivu 3)) = some { duringDivu 2 with host := [] } ∧
    nextState (step (duringDivu 2)) = some { duringDivu 1 with host := [] } := by decide
/-- L2.10 edge 4: the DIVU completes, and the presented ADD is not accepted. -/
theorem test_edge_completes :
    nextState (step (duringDivu 1)) = some { State.reset with
      res0 := 14, res1 := 2, valid := true, timing := illustration } := by decide
/-- L2.10 edge 5: a zero-latency command completes at its acceptance. -/
theorem test_edge_zero_latency :
    nextState (step { State.reset with
      res0 := 14, res1 := 2, valid := true, host := [presentsAdd], timing := illustration }) =
    some { State.reset with res0 := 15, res1 := 2, valid := true, timing := illustration } := by decide
/-- L2.10 edge 8: reset drops the command, even at the edge its completion is due (R250). -/
theorem test_edge_reset :
    nextState (step { duringDivu 1 with res0 := 15, res1 := 2, host := [⟨true, true, 0x41, 0, 1⟩] }) =
    some { State.reset with timing := illustration } := by decide
/-- L2.10, `in_ready after`; and R44: not while `rst = 1`. -/
theorem test_in_ready :
    beforeDivu.inReady = true ∧ (duringDivu 3).inReady = false ∧
    ({ State.reset with host := [⟨true, false, 0, 0, 0⟩] } : State).inReady = false := by decide
/-- L2.10 edge 5 (R265): the last command is accepted and completes, the host samples it, and the run has
ended. -/
theorem test_run_ended :
    let r : HostRun :=
      ⟨{ State.reset with
          res0 := 14, res1 := 2, valid := true, host := [presentsAdd], timing := illustration },
        false, true, [(14, 2, 0)]⟩
    ∃ q, r.edge true = .next q ∧ RunEnded q ∧
      endState q = ((15, 2, .success, true), [(14, 2, 0), (15, 2, 0)]) :=
  ⟨_, rfl, ⟨by decide, by decide, rfl, rfl, by decide⟩, by decide⟩
/-- R265: where the last presented command was not accepted (L2.10 edge 4), or the host does not sample, the
run has not ended. -/
theorem test_run_not_ended :
    (∃ q, HostRun.edge true ⟨duringDivu 1, true, false, []⟩ = .next q ∧ q.core.valid = true ∧
      q.record = [(14, 2, 0)] ∧ ¬ RunEnded q) ∧
    ∃ q, HostRun.edge false ⟨{ duringDivu 1 with host := [] }, true, false, []⟩ = .next q ∧
      q.core.valid = true ∧ q.record = [] ∧ ¬ RunEnded q :=
  ⟨⟨_, rfl, rfl, by decide, fun h => absurd h.lastAccepted (by decide)⟩,
    _, rfl, rfl, by decide, fun h => absurd h.lastSampled (by decide)⟩
/-- R262: the operands may shorten a latency, and MAX_LAT bounds it. -/
theorem test_latency :
    latency ⟨9, [⟨0x0C, some (100, 7), 2⟩, ⟨0x0C, none, 20⟩]⟩ 0x0C 100 7 = 2 ∧
    latency ⟨9, [⟨0x0C, some (100, 7), 2⟩, ⟨0x0C, none, 20⟩]⟩ 0x0C 100 8 = 9 := by decide

/-! ### The 16-byte layout (L2.9), the assembler and the pseudo-instructions (L2.7) -/

theorem test_bytes : toBytes 0x0123456789ABCDEFFEDCBA9876543210 =
    [0x10, 0x32, 0x54, 0x76, 0x98, 0xBA, 0xDC, 0xFE, 0xEF, 0xCD, 0xAB, 0x89, 0x67, 0x45, 0x23, 0x01] := by
  decide
theorem test_assemble_selected_and_literal :
    assembleText ['a', 'd', 'd', ' ', 'R', '0', ',', ' ', '#', '-', '1', ' ', ';', ' ', 'x'] =
      .ok [⟨0x41, 0, 0xFFFFFFFFFFFFFFFFFFFFFFFFFFFFFFFF⟩] := by decide
theorem test_assemble_not :
    assembleText ['N', 'O', 'T', ' ', '#', '0', 'x', 'F', 'F'] = .ok [⟨0x03, 255, 0⟩, ⟨0x42, 0, 1⟩] := by
  decide
theorem test_assemble_raw :
    assembleText ['.', 'c', 'm', 'd', ' ', '0', 'x', 'D', '8', ',', ' ', '0', 'b', '1', '1', ',', ' ', '9'] =
      .ok [⟨0xD8, 3, 9⟩] := by decide
/-- R92: `R1` in the first position is an error, and so is `R0` in the second. -/
theorem test_assemble_wrong_register :
    assembleText ['A', 'D', 'D', ' ', 'R', '1', ',', 'R', '1'] = .error .r1AsFirst ∧
    assembleText ['A', 'D', 'D', ' ', 'R', '0', ',', 'R', '0'] = .error .r0AsSecond := by decide
/-- R93: separators, and the range of a literal. -/
theorem test_literals :
    parseNumber ['1', '_', '0', '\'', '0'] = some 100 ∧ parseNumber ['0', 'x', 'f', '_'] = none ∧
    literalField (2 ^ 128) = .error .outOfRange ∧
    literalField (-2 ^ 127) = .ok 0x80000000000000000000000000000000 := by decide
theorem test_disassemble : disassemble ⟨0x98, 0, 0⟩ = ['P', 'O', 'P', 'C', 'N', 'T', ' ', '#'] ++ hexForm 0 := by
  rfl

/-! ### Witnesses: for every statement with hypotheses, a state and operands that meet them -/

/-- L2.10 edge 8: `rst` with a command in progress and one presented. -/
def resetDuringDivu : State := { duringDivu 2 with host := [⟨true, true, 0x41, 0, 1⟩] }

theorem duringDivu_invariant : Invariant (duringDivu 3) :=
  ⟨rfl, fun _ => rfl, by rintro p ⟨⟩; decide, by decide⟩

theorem reset_invariant : Invariant State.reset := ⟨rfl, by decide, by rintro p ⟨⟩, by decide⟩

theorem noReset_beforeDivu (k : Nat) : NoReset k beforeDivu := by
  intro p hp
  have h : p ∈ beforeDivu.host := List.mem_of_mem_take hp
  simp only [beforeDivu, List.mem_cons, List.not_mem_nil, or_false] at h
  rcases h with rfl | rfl <;> rfl

theorem noReset_duringDivu (k : Nat) : NoReset k (duringDivu 3) := by
  intro p hp
  have h : p ∈ (duringDivu 3).host := List.mem_of_mem_take hp
  simp only [duringDivu, List.mem_cons, List.not_mem_nil, or_false] at h
  subst h
  rfl

theorem witness_ResetEdgeOverridesEverything :
    resetDuringDivu.pins.rst = true ∧ resetDuringDivu.busy = true ∧ resetDuringDivu.pins.inValid = true := by
  decide
theorem witness_OutputsAreDrivenFromRegisters :
    presentsAdd.rst = PortSample.idle.rst ∧ presentsAdd ≠ PortSample.idle := by decide
theorem witness_StepKeepsInvariant :
    Invariant (duringDivu 3) ∧ ∃ t, step (duringDivu 3) = .next t := ⟨duringDivu_invariant, _, rfl⟩
theorem witness_EncodeOfDecode : decode ⟨0x98, 3, 4⟩ = .ok (.popcnt ⟨false, 3⟩ ⟨true, 4⟩) := rfl
/-- Each clause: a defined FUNC and both ends of the last reserved range. -/
theorem witness_DefinedFuncValues :
    opFunc 0xEB ∈ definedFuncs ∧ opFunc 0x2C ∈ reservedFuncs ∧ opFunc 0xFF ∈ reservedFuncs ∧
      opFunc 0x2C ∉ definedFuncs := by decide
/-- An idle core with the ADD presented, which takes no time. -/
theorem witness_StepRunsPresentedCommand :
    let s : State := { fiveSeven with host := [presentsAdd] }
    s.pins.rst = false ∧ s.pins.inValid = true ∧ s.pending = none ∧
      decode s.pins.command = .ok (.add ⟨true, 0⟩ ⟨false, 1⟩) ∧
      latency s.timing 0x01 (s.operandA ⟨true, 0⟩) (s.operandB ⟨false, 1⟩) = 0 := by decide
theorem witness_AcceptanceRecordsCommand :
    beforeDivu.pins.rst = false ∧ beforeDivu.pins.inValid = true ∧ beforeDivu.busy = false ∧
      0 < latency beforeDivu.timing (beforeDivu.pins.inOp.extractLsb' 0 6) 100 7 := by decide
theorem witness_CommandCompletesAfterLatency :
    beforeDivu.pins.inValid = true ∧ beforeDivu.pending = none ∧
      decode beforeDivu.pins.command = .ok (.divu ⟨false, 100⟩ ⟨false, 7⟩) ∧
      latency beforeDivu.timing 0x0C 100 7 = 3 ∧ NoReset (3 + 1) beforeDivu :=
  ⟨rfl, rfl, rfl, by decide, noReset_beforeDivu _⟩
/-- The first reserved value, the last of the single ones, and the ends of the last range. -/
theorem witness_ReservedFuncReportsIllegalOp :
    let presented (op : BitVec 8) : State := { fiveSeven with host := [⟨false, true, op, 1, 2⟩] }
    ∀ op ∈ [(0x06 : BitVec 8), 0x57, 0x2C, 0xFF],
      (presented op).pins.inValid = true ∧ (presented op).pending = none ∧
      (opFunc (presented op).pins.inOp ∈ [0x06, 0x07, 0x0A, 0x0B, 0x0E, 0x0F, 0x15, 0x16, 0x17] ∨
        0x2C ≤ opFunc (presented op).pins.inOp) ∧
      NoReset 1 (presented op) := by
  intro presented op hop
  refine ⟨rfl, rfl, ?_, ?_⟩
  · change opFunc op ∈ _ ∨ 0x2C ≤ opFunc op
    revert op
    decide
  · intro p hp
    have h : p ∈ (presented op).host := List.mem_of_mem_take hp
    simp only [presented, List.mem_cons, List.not_mem_nil, or_false] at h
    subst h
    rfl
theorem witness_CommandPortMattersOnlyAtAcceptance :
    (presentsAdd.rst = PortSample.idle.rst ∧ (duringDivu 3).busy = true) ∧
    ((⟨false, false, 0x41, 0, 1⟩ : PortSample).rst = PortSample.idle.rst ∧
      (⟨false, false, 0x41, 0, 1⟩ : PortSample).inValid = false ∧ PortSample.idle.inValid = false) ∧
    ((duringDivu 1).pins.rst = false ∧ ∃ t, step (duringDivu 1) = .next t) ∧
    (fiveSeven.busy = false ∧ fiveSeven.pins.inValid = false ∧ fiveSeven.pins.rst = false) :=
  ⟨by decide, by decide, ⟨rfl, _, rfl⟩, by decide⟩
theorem witness_PendingCommandTerminates :
    (Invariant (duringDivu 3) ∧ (duringDivu 3).busy = true ∧ NoReset 3 (duringDivu 3)) ∧
    (beforeDivu.busy = false ∧ beforeDivu.pins.inValid = true ∧ NoReset (3 + 1) beforeDivu) :=
  ⟨⟨duringDivu_invariant, rfl, noReset_duringDivu _⟩, rfl, rfl, noReset_beforeDivu _⟩
theorem witness_DivisionLaws : uVal (fiveSeven.operandB .res) ≠ 0 ∧
    (∃ t, exec (.divu .res .res) fiveSeven = .next t) ∧ ∃ t, exec (.divs .res .res) fiveSeven = .next t :=
  ⟨by decide, ⟨_, rfl⟩, _, rfl⟩
theorem witness_LatencyIsAFixedBoundedFunction : ∃ t, step beforeDivu = .next t := ⟨_, rfl⟩
theorem witness_ResultPortHoldsUntilCompletion :
    Invariant (duringDivu 3) ∧ (duringDivu 3).pins.rst = false ∧
      step (duringDivu 3) = .next { duringDivu 2 with host := [] } ∧
      (State.busy { duringDivu 2 with host := [] }) = true := ⟨duringDivu_invariant, rfl, rfl, rfl⟩
theorem witness_CompletionWritesOnlyItsRegisters :
    (Instr.mul .res .res).func ∉ [0x00, 0x0C, 0x0D, 0x26, 0x27] ∧
      opFunc (⟨0xFF, 1, 2, 1⟩ : Pending).op ∈ reservedFuncs := by decide
theorem witness_StatusCodesOfEachCommand : ∃ t, exec (.csubu .res .res) fiveSeven = .next t := ⟨_, rfl⟩
/-- Each of the three codes, and both kinds of command. -/
theorem witness_ErrorsWriteZeros :
    (∃ t, exec (.caddu (.lit ONES) (.lit 1)) fiveSeven = .next t ∧ t.status = .overflow) ∧
    (∃ t, exec (.csubu .res .res) fiveSeven = .next t ∧ t.status = .underflow) ∧
    (∃ t, exec (.cdivs .res (.lit 0)) fiveSeven = .next t ∧ t.status = .invalidInput) :=
  ⟨⟨_, rfl, by decide⟩, ⟨_, rfl, by decide⟩, ⟨_, rfl, by decide⟩⟩
theorem witness_StatusIsNotStickyAndNotRead :
    (Instr.divs (.lit 1) (.lit 0)).checked = false ∧ (Instr.satsubs .res .res).checked = false := by decide
theorem witness_UnreadBitsHaveNoEffect :
    let i := Instr.clz ⟨true, 1⟩ ⟨true, 2⟩
    let j := Instr.clz ⟨true, 3⟩ ⟨false, 4⟩
    (i.func = j.func ∧ fiveSeven.operandA i.srcA = fiveSeven.operandA j.srcA ∧ i.unary = true) ∧
    (fiveSeven.operandB ⟨true, 1⟩ = fiveSeven.operandB ⟨true, 2⟩) ∧
    ((fiveSeven.operandB ⟨false, 5⟩).extractLsb' 0 7 = (fiveSeven.operandB ⟨false, 133⟩).extractLsb' 0 7) ∧
    ((fiveSeven.operandA ⟨false, 5⟩).extractLsb' 0 64 =
      (fiveSeven.operandA ⟨false, 0x10000000000000005⟩).extractLsb' 0 64) := by decide
theorem witness_UnselectedCommandIsIdempotent :
    let i := Instr.divu (.lit 100) (.lit 7)
    i.srcA.sel = false ∧ i.srcB.sel = false ∧ (∃ t, exec i fiveSeven = .next t) ∧
      (∃ t, exec i .reset = .next t) ∧ i.writesRes1 = true := ⟨rfl, rfl, ⟨_, rfl⟩, ⟨_, rfl⟩, rfl⟩
theorem witness_InstancesShareNothing :
    ∃ sys' : System, System.stepAt 1 [duringDivu 3, beforeDivu] = .next sys' ∧ 0 ≠ 1 ∧
      ([duringDivu 3, beforeDivu] : System)[1]? = some beforeDivu := ⟨_, rfl, by decide, rfl⟩
/-- For ShlMultipliesByPowerOfTwo and ShruDividesByPowerOfTwo: the amounts where their clauses meet. -/
theorem witness_shift_amounts :
    (0#128).toNat = 0 ∧ (0 < (1#128).toNat ∧ (63#128).toNat < 64) ∧
      (64 ≤ (64#128).toNat ∧ (127#128).toNat < 128) ∧ 128 ≤ (128#128).toNat ∧
      128 ≤ (0x10000000000000000#128).toNat := by decide
/-- R132 at the first saturating amount, for both signs. -/
theorem witness_ShrsFloorsSignedQuotient :
    128 ≤ (fiveSeven.operandB (.lit 128)).toNat ∧ (fiveSeven.operandA (.lit ONES)).getLsbD 127 = true ∧
      (fiveSeven.operandA .res).getLsbD 127 = false := by decide
/-- Also for RolMovesEveryBitLeft and RorMovesEveryBitRight: the ends of the range. -/
theorem witness_ShiftAndRotateLaws : 0 < 128 ∧ 127 < 128 := by decide
/-- For DivuQuotientAndRemainder, DivsTruncatesTowardZero, LongDivisionRefinesDivider and
CheckedDivisions: a zero divisor, a nonzero one, SMIN / -1 and its neighbour SMIN / 1. -/
theorem witness_divisions :
    uVal (0 : Word) = 0 ∧ uVal (7 : Word) ≠ 0 ∧ uVal ONES ≠ 0 ∧
      sVal (0x80000000000000000000000000000000 : Word) = SMIN ∧ sVal ONES = -1 ∧
      ¬ (sVal (0x80000000000000000000000000000000 : Word) = SMIN ∧ sVal (1 : Word) = -1) := by decide
/-- Each clause, the powers at both ends. -/
theorem witness_DivisionFastPaths :
    uVal (7 : Word) < uVal (100 : Word) ∧ uVal (7 : Word) ≠ 0 ∧
      (0x80000000000000000000000000000000 : Word) = w128 (2 ^ 127) ∧ (1 : Word) = w128 (2 ^ 0) := by decide
/-- For the four statements about counts and positions: zero, the lowest bit alone and the highest. -/
theorem witness_counts : (0 : Word) = 0 ∧ (1 : Word) ≠ 0 ∧ (0x80000000000000000000000000000000 : Word) ≠ 0 := by decide
theorem witness_CounterLaws :
    highWord (0xFFFFFFFFFFFFFFFF : Word) = 0 ∧ (0xFFFFFFFFFFFFFFFF : Word) ≠ 0 := by decide
/-- The exact results at both ends of the signed range. -/
theorem witness_SignedCheckedCommands : SMIN ≤ SMIN ∧ SMIN ≤ SMAX ∧ SMAX ≤ SMAX ∧
    sVal (0x7FFFFFFFFFFFFFFFFFFFFFFFFFFFFFFF : Word) + sVal (0 : Word) = SMAX ∧
      sVal ONES - sVal (0x7FFFFFFFFFFFFFFFFFFFFFFFFFFFFFFF : Word) = SMIN ∧
      sVal (0xFFFFFFFFFFFFFFFF0000000000000000 : Word) * sVal (0x8000000000000000 : Word) = SMIN := by decide
/-- SUCCESS and an error, of the same pairs of commands. -/
theorem witness_DetectorLaws :
    (∃ tc tu, exec (.csubs .res .res) fiveSeven = .next tc ∧ exec (.sub .res .res) fiveSeven = .next tu ∧
      tc.status = .success) ∧
    (∃ tz tc tu, exec (.satsubu .res .res) fiveSeven = .next tz ∧
      exec (.csubu .res .res) fiveSeven = .next tc ∧ exec (.sub .res .res) fiveSeven = .next tu ∧
      tc.status ≠ .success) ∧
    ∃ t tu, exec (.cadds .res .res) fiveSeven = .next t ∧ exec (.add .res .res) fiveSeven = .next tu :=
  ⟨⟨_, _, rfl, rfl, by decide⟩, ⟨_, _, _, rfl, rfl, rfl, by decide⟩, _, _, rfl, rfl⟩
theorem witness_SixteenByteLayout : 0 < 16 ∧ 15 < 16 ∧ 0 < 4 ∧ 3 < 4 := by decide
theorem witness_AssembleOfDisassemble :
    (Instr.add .res (.lit ONES)).wellFormed = true ∧ (Instr.clo (.lit 3) (.lit 0)).wellFormed = true := by
  decide

end Sys2Proof.Tests
end

section
/-! SUPPORT. The family of 10_state.md. First what BUSY, `in_ready` and the captured latency are after each
named update; then that each update an edge can make establishes or keeps the invariant, from which, with
`step_cases`, every edge keeps it (R33, R35, R36); last what a completion writes (R32, R34). -/

namespace Sys2Proof

open Sys2Proof.Machine

/-! ### BUSY, `in_ready` and the captured latency -/

namespace Machine.State

@[simp] theorem finish_busy (r0 r1 : Word) (st : Status) (s : State) :
    (s.finish r0 r1 st).busy = false := rfl
@[simp] theorem advance_busy (s : State) : s.advance.busy = s.busy := rfl
@[simp] theorem startPending_busy (p : Pending) (s : State) : (s.startPending p).busy = true := rfl
@[simp] theorem tick_busy (p : Pending) (s : State) : (s.tick p).busy = true := rfl
@[simp] theorem resetRegisters_busy (s : State) : s.resetRegisters.busy = false := rfl
@[simp] theorem reset_busy : State.reset.busy = false := rfl

theorem busy_of_pending {s : State} {p : Pending} (h : s.pending = some p) : s.busy = true := by
  simp [State.busy, h]

theorem inReady_iff (s : State) : s.inReady = true ↔ s.busy = false ∧ s.pins.rst = false := by
  simp [State.inReady]

/-- Of the port values at an edge, `in_ready` reads `rst` alone (R44). -/
theorem inReady_cons (s : State) (p : PortSample) (rest : List PortSample) :
    ({ s with host := p :: rest } : State).inReady = (!s.busy && !p.rst) := rfl

/-- What acceptance records has at most MAX_LAT edges to go (R262). -/
theorem capture_left_le (s : State) (c : Command) : (s.capture c).left ≤ s.timing.maxLat :=
  latency_le _ _ _ _

end Machine.State

/-! ### The invariant after each update -/

/-- Reset establishes the invariant from any registers (R45, R250). -/
theorem invariant_resetRegisters (s : State) : Invariant s.resetRegisters where
  statusNamed := rfl
  busyHidesResult _ := rfl
  pendingIsTimed p hp := by simp at hp
  quietAfterReset _ _ := ⟨rfl, rfl, rfl⟩

/-- A completion with a code that R33 names establishes the invariant from any registers. -/
theorem invariant_finish {st : Status} (hst : st.named = true) (r0 r1 : Word) (s : State) :
    Invariant (s.finish r0 r1 st) where
  statusNamed := hst
  busyHidesResult hb := by simp at hb
  pendingIsTimed p hp := by simp at hp
  quietAfterReset _ hv := by simp at hv

theorem invariant_of_complete {p : Pending} {s t : State} (h : complete p s = .next t) :
    Invariant t := by
  obtain ⟨r0, r1, st, hc, hst⟩ := complete_cases p s
  obtain rfl : s.finish r0 r1 st = t := by simpa [hc] using h
  exact invariant_finish hst r0 r1 s

/-- The invariant does not speak of the input ports. -/
theorem Invariant.advance {s : State} (h : Invariant s) : Invariant s.advance :=
  ⟨h.statusNamed, h.busyHidesResult, h.pendingIsTimed, h.quietAfterReset⟩

/-- An acceptance hides the result port (R252), and the command has 1 to MAX_LAT edges to go. -/
theorem Invariant.startPending {s : State} (h : Invariant s) {p : Pending} (hpos : 1 ≤ p.left)
    (hmax : p.left ≤ s.timing.maxLat) : Invariant (s.startPending p) where
  statusNamed := h.statusNamed
  busyHidesResult _ := rfl
  pendingIsTimed q hq := by
    obtain rfl : p = q := by simpa using hq
    exact ⟨hpos, hmax⟩
  quietAfterReset hb := by simp at hb

/-- An edge before the last leaves the command in progress at least one more (R253). -/
theorem Invariant.tick {s : State} (h : Invariant s) {p : Pending} (hp : s.pending = some p)
    (hl : 1 < p.left) : Invariant (s.tick p) where
  statusNamed := h.statusNamed
  busyHidesResult _ := h.busyHidesResult (State.busy_of_pending hp)
  pendingIsTimed q hq := by
    obtain rfl : { p with left := p.left - 1 } = q := by simpa using hq
    have hmax : p.left ≤ s.timing.maxLat := (h.pendingIsTimed p hp).2
    exact ⟨Nat.le_sub_one_of_lt hl, (Nat.sub_le _ _).trans hmax⟩
  quietAfterReset hb := by simp at hb

/-- Settles O6: each of the six things an edge can do establishes or keeps the invariant. -/
theorem stepKeepsInvariant : Obligations.StepKeepsInvariant := by
  intro s t hinv hstep
  rcases step_cases s with ⟨-, hs⟩ | ⟨-, p, -, -, hs⟩ | ⟨-, p, hp, hl, hs⟩ | ⟨-, -, -, hs⟩ |
    ⟨-, -, -, -, hs⟩ | ⟨-, -, -, hpos, hs⟩ <;> rw [hs] at hstep
  · -- reset
    cases hstep
    exact invariant_resetRegisters s.advance
  · -- the completion of the command in progress
    exact invariant_of_complete hstep
  · -- an edge before its completion
    cases hstep
    exact hinv.advance.tick hp hl
  · -- idle
    cases hstep
    exact hinv.advance
  · -- an acceptance with its completion
    exact invariant_of_complete hstep
  · -- an acceptance
    cases hstep
    exact hinv.advance.startPending hpos (State.capture_left_le _ _)

/-- Settles O5: the state after reset is one that a reset edge leaves. -/
theorem invariantAtReset : Obligations.InvariantAtReset :=
  invariant_resetRegisters State.reset

/-! ### What a completion writes -/

/-- The commands of R32 that write RES1, by their FUNC values. -/
theorem writesRes1_iff_func (i : Instr) :
    i.writesRes1 = true ↔ i.func ∈ [0x00, 0x0C, 0x0D, 0x26, 0x27] := by
  cases i <;> simp [Instr.writesRes1, Instr.func]

/-- No command of R82 has a reserved FUNC value. -/
theorem func_not_mem_reservedFuncs (i : Instr) : i.func ∉ reservedFuncs := by
  cases i <;> simp [Instr.func, reservedFuncs]

theorem decodeFunc_of_mem_reservedFuncs {f : BitVec 6} (h : f ∈ reservedFuncs) (a b : Source) :
    ∃ e, decodeFunc f a b = .error e := by
  cases hd : decodeFunc f a b with
  | error e => exact ⟨e, rfl⟩
  | ok i =>
    obtain ⟨rfl, -, -⟩ := decodeFunc_ok hd
    exact absurd h (func_not_mem_reservedFuncs i)

/-- A command that reports no error writes SUCCESS (R34). -/
theorem results_st_of_unchecked {i : Instr} (h : i.checked = false) (x y keep : Word) :
    (results i x y keep).st = .success := by
  cases i <;> cases h <;> rfl

/-- Settles O20: a command completes with its results, which keep RES1 where R32 says so, and a reserved
FUNC with its report. -/
theorem completionWritesOnlyItsRegisters : Obligations.CompletionWritesOnlyItsRegisters := by
  refine ⟨fun i s => ⟨_, _, _, exec_eq i s, fun hf => ?_⟩, fun p s hres => ?_⟩
  · have hkeep : i.writesRes1 = false := Bool.eq_false_iff.2 (mt (writesRes1_iff_func i).1 hf)
    exact results_keep hkeep _ _ _
  · obtain ⟨e, he⟩ := decodeFunc_of_mem_reservedFuncs hres (.lit p.a) (.lit p.b)
    exact complete_reserved he s

/-- Settles O23: the results are read off the operands alone, and only a checked command reports an
error. -/
theorem statusIsNotStickyAndNotRead : Obligations.StatusIsNotStickyAndNotRead :=
  ⟨fun i s st v => exec_unread i s st v s.pending,
    fun i s hi => ⟨_, exec_eq i s, results_st_of_unchecked hi _ _ _⟩⟩

/-! ### Reset values, output ports and STATUS codes -/

/-- Settles O1: each register's reset value, in `State.reset` and after a reset edge. -/
theorem resetValues : Obligations.ResetValues :=
  ⟨⟨State.reset_res0, State.reset_res1, rfl, State.reset_valid, State.reset_busy, State.reset_pending⟩,
    fun s => ⟨s.resetRegisters_res0, s.resetRegisters_res1, s.resetRegisters_status,
      s.resetRegisters_valid, s.resetRegisters_busy, s.resetRegisters_pending⟩⟩

/-- Settles O3: the result port is the registers themselves, and `in_ready` reads `rst` alone of the
input ports. -/
theorem outputsAreDrivenFromRegisters : Obligations.OutputsAreDrivenFromRegisters := by
  refine ⟨fun s => ⟨rfl, rfl, rfl, rfl, s.inReady_iff⟩, fun s p q rest hrst => ?_⟩
  refine ⟨rfl, rfl, rfl, rfl, ?_⟩
  rw [State.inReady_cons, State.inReady_cons, hrst]

/-- Settles O4: each code by its definition, and the names code by code. -/
theorem statusCodeNumbers : Obligations.StatusCodeNumbers :=
  ⟨rfl, rfl, rfl, rfl, rfl, fun c => by cases c <;> decide⟩

end Sys2Proof
end

section
/-! SUPPORT. The family of 20_memory.md: what a command leaves when its fields select no register (R64), what
an edge of one core does to a system (R70), and that a read of consecutive bytes of the 16-byte layout is a
slice of the value (R61, R62). -/

namespace Sys2Proof

open Sys2Proof.Machine

/-! ### Commands that select no register -/

namespace Machine.State

@[simp] theorem operandA_unselected {x : Source} (h : x.sel = false) (s : State) :
    s.operandA x = x.imm := by simp [State.operandA, h]

@[simp] theorem operandB_unselected {x : Source} (h : x.sel = false) (s : State) :
    s.operandB x = x.imm := by simp [State.operandB, h]

@[simp] theorem finish_finish (r0 r1 q0 q1 : Word) (st qt : Status) (s : State) :
    (s.finish r0 r1 st).finish q0 q1 qt = s.finish q0 q1 qt := rfl

end Machine.State

/-- Given the RES1 it has just left as the RES1 to keep, a command has the same results again. -/
theorem results_keep_r1 (i : Instr) (x y keep : Word) :
    results i x y (results i x y keep).r1 = results i x y keep := by
  cases h : i.writesRes1 with
  | true => exact results_not_keep h x y _ _
  | false => rw [results_keep h]

/-- With ASEL = 0 and BSEL = 0 a command completes with the results of its presented fields (R86). -/
theorem exec_unselected {i : Instr} (ha : i.srcA.sel = false) (hb : i.srcB.sel = false) (s : State) :
    exec i s = .next (s.finish
      (results i i.srcA.imm i.srcB.imm s.res1).r0
      (results i i.srcA.imm i.srcB.imm s.res1).r1
      (results i i.srcA.imm i.srcB.imm s.res1).st) := by
  rw [exec_eq, State.operandA_unselected ha, State.operandB_unselected hb]

/-- Settles O25: the operands are the presented fields, and the RES1 that the first presentation leaves is
one that the second keeps or writes again. -/
theorem unselectedCommandIsIdempotent : Obligations.UnselectedCommandIsIdempotent := by
  intro i s s' t t' ha hb ht ht'
  rw [exec_unselected ha hb] at ht ht'
  cases ht
  cases ht'
  obtain ⟨hr0, hst⟩ := results_keep_irrelevant i i.srcA.imm i.srcB.imm s.res1 s'.res1
  refine ⟨hr0, hst, fun hw => ?_, ?_⟩
  · exact congrArg Results.r1 (results_not_keep hw _ _ _ _)
  · rw [exec_unselected ha hb, State.finish_res1, results_keep_r1, State.finish_finish]

/-! ### Systems of several instances -/

/-- All that an edge of core `k` can do to a system: nothing without such a core, and otherwise a step of
that core in its place. -/
theorem stepAt_cases {k : Nat} {sys sys' : System} (h : System.stepAt k sys = .next sys') :
    (sys[k]? = none ∧ sys' = sys) ∨
    ∃ s t, sys[k]? = some s ∧ step s = .next t ∧ sys' = sys.set k t := by
  unfold System.stepAt at h
  cases hk : sys[k]? with
  | none =>
    rw [hk] at h
    cases h
    exact .inl ⟨rfl, rfl⟩
  | some s =>
    simp only [hk] at h
    cases hs : step s with
    | next t =>
      rw [hs] at h
      cases h
      exact .inr ⟨s, t, rfl, hs, rfl⟩
    | fault r => cases r
    | refused r =>
      rw [hs] at h
      cases h

/-- Settles O26: an edge sets the core it steps and no other. -/
theorem instancesShareNothing : Obligations.InstancesShareNothing := by
  intro sys sys' k h
  rcases stepAt_cases h with ⟨hk, rfl⟩ | ⟨s, t, hk, hs, rfl⟩
  · exact ⟨fun _ _ => rfl, fun s hs => absurd (hk.symm.trans hs) nofun⟩
  · refine ⟨fun j hj => List.getElem?_set_ne hj.symm, fun s' hs' => ?_⟩
    obtain rfl : s = s' := Option.some.inj (hk.symm.trans hs')
    obtain ⟨hlt, -⟩ := List.getElem?_eq_some_iff.1 hk
    exact ⟨t, hs, List.getElem?_set_self hlt⟩

/-! ### The 16-byte layout -/

@[simp] theorem toBytes_length (v : Word) : (toBytes v).length = 16 := by simp [toBytes]

theorem toBytes_getElem? (v : Word) {k : Nat} (h : k < 16) : (toBytes v)[k]? = some (byteOf v k) := by
  simp [toBytes, h]

theorem toNat_byteOf (v : Word) (k : Nat) : (byteOf v k).toNat = v.toNat / 2 ^ (8 * k) % 256 := by
  simp [byteOf, Nat.shiftRight_eq_div_pow]

/-- Bytes `k` to `k + n - 1` of a value stand, the first one lowest, for its bits from `8k` on, `8n` of
them. -/
theorem littleEndian_bytes (v : Word) (k n : Nat) :
    littleEndian ((List.range' k n).map (byteOf v)) = v.toNat / 2 ^ (8 * k) % 2 ^ (8 * n) := by
  induction n generalizing k with
  | zero => simp [littleEndian, Nat.mod_one]
  | succ n ih =>
    have hdiv : v.toNat / 2 ^ (8 * (k + 1)) = v.toNat / 2 ^ (8 * k) / 256 := by
      rw [Nat.div_div_eq_div_mul, Nat.mul_succ, Nat.pow_add]
    have hpow : 2 ^ (8 * (n + 1)) = 256 * 2 ^ (8 * n) := by rw [Nat.mul_succ, Nat.pow_add, Nat.mul_comm]
    rw [List.range'_succ, List.map_cons, littleEndian, ih, toNat_byteOf, hdiv, hpow, Nat.mod_mul]

/-- A little-endian read inside the 16 bytes gives the slice of the value that those bytes hold (R62). -/
theorem readBytes_toBytes (v : Word) {k n : Nat} (h : k + n ≤ 16) :
    readBytes (toBytes v) k n = (v.extractLsb' (8 * k) (8 * n)).toNat := by
  have hbytes : ((toBytes v).drop k).take n = (List.range' k n).map (byteOf v) := by
    rw [toBytes, List.range_eq_range', ← List.map_drop, ← List.map_take, List.drop_range',
      List.take_range'_of_length_ge (by omega), Nat.zero_add, Nat.mul_one]
  rw [readBytes, hbytes, littleEndian_bytes, BitVec.extractLsb'_toNat, Nat.shiftRight_eq_div_pow]

/-- The 16 bytes lose nothing (R61). -/
theorem ofBytes_toBytes (v : Word) : ofBytes (toBytes v) = v := by
  have hread : littleEndian (toBytes v) = readBytes (toBytes v) 0 16 := by
    rw [readBytes, List.drop_zero, List.take_of_length_le (toBytes_length v).le]
  rw [ofBytes, hread, readBytes_toBytes v le_rfl, BitVec.ofNat_toNat, BitVec.setWidth_eq]
  exact BitVec.extractLsb'_eq_self

/-- Settles O58: the bytes by their definition, and the three reads as reads inside the 16 bytes. -/
theorem sixteenByteLayout : Obligations.SixteenByteLayout := by
  intro v
  refine ⟨toBytes_length v, fun k hk => toBytes_getElem? v hk, ofBytes_toBytes v,
    readBytes_toBytes v (by decide), readBytes_toBytes v (by decide), fun j hj => ?_⟩
  have hbit : 8 * (4 * j) = 32 * j := by omega
  rw [readBytes_toBytes v (by omega), hbit]

end Sys2Proof
end

section
/-! SUPPORT. The family of 30_encoding.md, the commands as bits and as meanings: the encoder and the decoder
read back (R80 to R82), the defined and the reserved FUNC values (R84, R90), the codes that a command can write
(R221), what it does not read (R86, R87), and the pseudo-instructions (R94). -/

namespace Sys2Proof

open Sys2Proof.Machine

/-! ### The encoder and the decoder -/

@[simp] theorem encode_srcA (i : Instr) : (encode i).srcA = i.srcA := by
  simp [Command.srcA, encode]

@[simp] theorem encode_srcB (i : Instr) : (encode i).srcB = i.srcB := by
  simp [Command.srcB, encode]

/-- Settles O8: the opcode byte and the ports of an encoding hold FUNC and the two fields, of which the FUNC
map makes the command. -/
theorem decodeOfEncode : Obligations.DecodeOfEncode := by
  intro i
  have hfunc : opFunc (encode i).op = i.func := opFunc_opByte _ _ _
  rw [decode, hfunc, encode_srcA, encode_srcB]
  exact decodeFunc_func i

/-- Settles O9: the decoded command has the FUNC value and the fields of the word, and these are all of it. -/
theorem encodeOfDecode : Obligations.EncodeOfDecode := by
  intro c i h
  obtain ⟨hfunc, ha, hb⟩ := decodeFunc_ok h
  rw [encode, hfunc, ha, hb]
  simp only [Command.srcA, Command.srcB, opByte_fields]

/-! ### Defined and reserved FUNC values -/

theorem not_mem_definedFuncs_iff (f : BitVec 6) : f ∉ definedFuncs ↔ f ∈ reservedFuncs := by
  revert f; decide

theorem func_mem_definedFuncs (i : Instr) : i.func ∈ definedFuncs :=
  not_not.1 (mt (not_mem_definedFuncs_iff _).1 (func_not_mem_reservedFuncs i))

/-- A rejection names the FUNC value that it rejects. -/
theorem decodeFunc_error {f : BitVec 6} {a b : Source} {e : DecodeError}
    (h : decodeFunc f a b = .error e) : e = .reservedFunc f := by
  unfold decodeFunc at h
  split at h <;> cases h
  rfl

/-- Every listed value selects a command. -/
theorem decodeFunc_of_mem_definedFuncs {f : BitVec 6} (h : f ∈ definedFuncs) (a b : Source) :
    ∃ i, decodeFunc f a b = .ok i := by
  fin_cases h <;> exact ⟨_, rfl⟩

/-- Settles O10: a listed value selects a command; the values off the list are the reserved ones, which no
command has. -/
theorem definedFuncValues : Obligations.DefinedFuncValues := by
  refine ⟨rfl, rfl, fun c => ⟨⟨?_, fun h => decodeFunc_of_mem_definedFuncs h _ _⟩,
    not_mem_definedFuncs_iff _, fun h => ?_⟩⟩
  · rintro ⟨i, hi⟩
    obtain ⟨hfunc, -, -⟩ := decodeFunc_ok hi
    exact hfunc ▸ func_mem_definedFuncs i
  · obtain ⟨e, he⟩ := decodeFunc_of_mem_reservedFuncs h c.srcA c.srcB
    rw [decode, he, decodeFunc_error he]

/-- Settles O11: the FUNC map at the nine bytes. -/
theorem writtenOutOpcodeBytes : Obligations.WrittenOutOpcodeBytes :=
  ⟨rfl, rfl, rfl, rfl, rfl, rfl, rfl, rfl, rfl⟩

/-- The reserved values as R90 groups them: nine gaps between the sub-units, and all from 0x2C up. -/
theorem mem_reservedFuncs_iff (f : BitVec 6) :
    f ∈ reservedFuncs ↔
      f ∈ [0x06, 0x07, 0x0A, 0x0B, 0x0E, 0x0F, 0x15, 0x16, 0x17] ∨ 0x2C ≤ f := by
  revert f; decide

/-- Settles O15: an accepted command lands with its completion, which for a reserved FUNC is its report. -/
theorem reservedFuncReportsIllegalOp : Obligations.ReservedFuncReportsIllegalOp := by
  intro s hvalid hidle hres lat
  refine ⟨latency_le _ _ _ _, fun hreset => ?_⟩
  obtain ⟨e, he⟩ := decodeFunc_of_mem_reservedFuncs ((mem_reservedFuncs_iff _).2 hres)
    (.lit (s.capture s.pins.command).a) (.lit (s.capture s.pins.command).b)
  exact (runEdges_accept s hvalid hidle hreset).trans (complete_reserved he _)

/-! ### Status codes -/

/-- The codes that R82 and R221 allow a command of FUNC value `f`. -/
def MayReport (f : BitVec 6) (st : Status) : Prop :=
  st = .success ∨
  (st = .overflow ∧ f ∈ [0x20, 0x21, 0x23, 0x24, 0x25, 0x27]) ∨
  (st = .underflow ∧ f ∈ [0x21, 0x22, 0x23, 0x25]) ∨
  (st = .invalidInput ∧ f ∈ [0x26, 0x27])

/-- A range test reports OVERFLOW and UNDERFLOW only for the sides of the range that the exact result can
leave (R190). -/
theorem mayReport_checkRange {f : BitVec 6} {lo hi x : Int}
    (hover : x ≤ hi ∨ f ∈ [0x20, 0x21, 0x23, 0x24, 0x25, 0x27])
    (hunder : lo ≤ x ∨ f ∈ [0x21, 0x22, 0x23, 0x25]) : MayReport f (checkRange lo hi x).2 := by
  rcases checkRange_cases lo hi x with ⟨hx, h⟩ | ⟨-, hx, h⟩ | ⟨-, -, h⟩ <;> rw [h]
  · exact .inr (.inl ⟨rfl, hover.resolve_left hx.not_ge⟩)
  · exact .inr (.inr (.inl ⟨rfl, hunder.resolve_left hx.not_ge⟩))
  · exact .inl rfl

theorem mayReport_checkedDivUnsigned (x y : Word) : MayReport 0x26 (checkedDivUnsigned x y).2 := by
  rcases checkedDivUnsigned_cases x y with ⟨-, h⟩ | ⟨-, h⟩ <;> rw [h]
  · exact .inr (.inr (.inr ⟨rfl, by decide⟩))
  · exact .inl rfl

theorem mayReport_checkedDivSigned (x y : Word) : MayReport 0x27 (checkedDivSigned x y).2 := by
  rcases checkedDivSigned_cases x y with ⟨-, h⟩ | ⟨-, -, h⟩ | ⟨-, -, h⟩ <;> rw [h]
  · exact .inr (.inr (.inr ⟨rfl, by decide⟩))
  · exact .inr (.inl ⟨rfl, by decide⟩)
  · exact .inl rfl

/-- A checked command reports what its range test or its division allows (R191 to R198). -/
theorem mayReport_results_of_checked {i : Instr} (h : i.checked = true) (x y keep : Word) :
    MayReport i.func (results i x y keep).st := by
  cases i <;> cases h
  case caddu => exact mayReport_checkRange (f := 0x20) (.inr (by decide)) (.inl (uVal_sum_bounds x y).1)
  case cadds => exact mayReport_checkRange (f := 0x21) (.inr (by decide)) (.inr (by decide))
  case csubu => exact mayReport_checkRange (f := 0x22) (.inl (uVal_sum_bounds x y).2) (.inr (by decide))
  case csubs => exact mayReport_checkRange (f := 0x23) (.inr (by decide)) (.inr (by decide))
  case cmulu => exact mayReport_checkRange (f := 0x24) (.inr (by decide)) (.inl (uVal_product_nonneg x y))
  case cmuls => exact mayReport_checkRange (f := 0x25) (.inr (by decide)) (.inr (by decide))
  case cdivu => exact mayReport_checkedDivUnsigned x y
  case cdivs => exact mayReport_checkedDivSigned x y

/-- Settles O21: an unchecked or a saturating command writes SUCCESS, and a checked one what it may report. -/
theorem statusCodesOfEachCommand : Obligations.StatusCodesOfEachCommand := by
  intro i s t h
  rw [exec_eq] at h
  cases h
  cases hchecked : i.checked with
  | false => exact .inl (results_st_of_unchecked hchecked _ _ _)
  | true => exact mayReport_results_of_checked hchecked _ _ _

/-! ### What a command does not read -/

/-- Commands that have the same results do the same. -/
theorem exec_congr {i j : Instr} {s : State}
    (h : results i (s.operandA i.srcA) (s.operandB i.srcB) s.res1 =
      results j (s.operandA j.srcA) (s.operandB j.srcB) s.res1) : exec i s = exec j s := by
  rw [exec_eq, exec_eq, h]

theorem rotateAmount_congr {y y' : Word} (h : y.extractLsb' 0 7 = y'.extractLsb' 0 7) :
    rotateAmount y = rotateAmount y' := congrArg BitVec.toNat h

theorem mulLowWords_congr {x x' y y' : Word} (hx : lowWord x = lowWord x') (hy : lowWord y = lowWord y') :
    mulLowWords x y = mulLowWords x' y' := by
  rw [mulLowWords, hx, hy, mulLowWords]

/-- Settles O24: FUNC and the operands give the results, of which a unary command ignores B, a rotation all
of B but the amount, and MULW the high words. -/
theorem unreadBitsHaveNoEffect : Obligations.UnreadBitsHaveNoEffect := by
  refine ⟨fun i j s hfunc ha hb => exec_congr ?_, fun a b b' s hb => ?_, fun a a' b b' s ha hb => ?_⟩
  · rw [ha, ← results_of_func hfunc]
    rcases hb with hunary | hb
    · exact results_unary hunary _ _ _ _
    · rw [hb]
  · have hn := rotateAmount_congr hb
    exact ⟨exec_congr (by simp only [results, Instr.srcA, Instr.srcB, hn]),
      exec_congr (by simp only [results, Instr.srcA, Instr.srcB, hn])⟩
  · have hp := mulLowWords_congr ha hb
    exact exec_congr (by simp only [results, Instr.srcA, Instr.srcB, hp])

/-! ### Pseudo-instructions -/

theorem addWords_eq_add (x y : Word) : addWords x y = x + y := by
  have h : addWords x y = w128 (uVal x) + w128 (uVal y) := (addWords_eq x y).trans (BitVec.ofInt_add _ _)
  rw [h, w128_uVal, w128_uVal]

theorem negWord_eq_neg (x : Word) : negWord x = -x := by
  have h : negWord x = -w128 (uVal x) := (negWord_eq x).trans BitVec.ofInt_neg
  rw [h, w128_uVal]

theorem subWords_eq_sub (x y : Word) : subWords x y = x - y := by
  have h : subWords x y = addWords x (negWord y) := by
    rw [subWords_eq, addWords_eq, negWord_eq, w128_eq_iff, uVal_w128]
    omega
  rw [h, addWords_eq_add, negWord_eq_neg, BitVec.sub_eq_add_neg]

/-- A negation less 1 is the complement (R94). -/
theorem subWords_negWord_one (x : Word) : subWords (negWord x) 1 = ~~~x := by
  rw [subWords_eq_sub, negWord_eq_neg, BitVec.not_eq_neg_add]
  rfl

/-- A rotation by 64 swaps the two words (R94). -/
theorem rotateLeftBy_64 (x : Word) : rotateLeftBy x 64 = lowWord x ++ highWord x := by
  apply BitVec.eq_of_getLsbD_eq
  intro i hi
  simp only [rotateLeftBy, lowWord, highWord, BitVec.getLsbD_or, BitVec.getLsbD_shiftLeft,
    BitVec.getLsbD_ushiftRight, BitVec.getLsbD_append, BitVec.getLsbD_extractLsb']
  by_cases h : i < 64
  · simp [h, hi]
  · have hhigh : x.getLsbD (64 + i) = false := BitVec.getLsbD_of_ge _ _ (by omega)
    have hlow : i - 64 < 64 := by omega
    simp [h, hi, hhigh, hlow]

/-- Against 0 the unsigned three-way answer is never -1 (R94). -/
theorem threeWay_uVal_zero (x : Word) : threeWay (uVal x) (uVal (0 : Word)) = if x = 0 then 0 else 1 := by
  have h0 : uVal (0 : Word) = 0 := rfl
  rw [threeWay, if_neg (by have := uVal_nonneg x; omega)]
  simp only [uVal_inj]
  rfl

/-- A run of commands that leaves one value in RES0, given in another form. -/
theorem runCommands_writeRes0 {is : List Instr} {s : State} {r r' : Word} {st : Status}
    (h : runCommands is s = .next (s.writeRes0 r st)) (hr : r = r') :
    runCommands is s = .next (s.writeRes0 r' st) := hr ▸ h

/-- Settles O59: the expansions by their definition; a PASS writes both its operands, and the other
commands the arithmetic of R94. -/
theorem pseudoInstructionEffects : Obligations.PseudoInstructionEffects := by
  intro a b s x done
  refine ⟨⟨rfl, rfl, rfl, rfl, rfl, rfl, rfl, rfl, rfl⟩, rfl, rfl, rfl, rfl, ?_, ?_, ?_, ?_, ?_⟩
  · exact runCommands_writeRes0 rfl (addWords_eq_add x 1)
  · exact runCommands_writeRes0 rfl (subWords_eq_sub x 1)
  · exact runCommands_writeRes0 rfl (subWords_negWord_one x)
  · exact runCommands_writeRes0 rfl (rotateLeftBy_64 x)
  · exact runCommands_writeRes0 rfl (threeWay_uVal_zero x)

end Sys2Proof
end

section
/-! SUPPORT. The family of 30_encoding.md, the commands as text: a printed line is taken apart into its mnemonic
and its operands (R92), each is read back (R93), and the assembler makes the command of them (R95). -/

namespace Sys2Proof

open Sys2Proof.Machine

/-! ### Words of a line -/

/-- A character inside a part of a line: no blank, no `;` and no `,` (R92). -/
def wordChar (c : Char) : Bool := !isBlank c && !(c = ';') && !(c = ',')

/-- A part of a line that no step of the parser cuts. -/
structure IsWord (t : List Char) : Prop where
  ne_nil : t ≠ []
  chars : ∀ c ∈ t, wordChar c = true

theorem wordChar_iff (c : Char) : wordChar c = true ↔ isBlank c = false ∧ c ≠ ';' ∧ c ≠ ',' := by
  simp [wordChar, and_assoc]

theorem wordChar_of_plainChar {c : Char} (h : plainChar c = true) : wordChar c = true := by
  obtain ⟨hblank, -, hsemi, hcomma⟩ := plainChar_not c h
  exact (wordChar_iff c).2 ⟨hblank, hsemi, hcomma⟩

namespace IsWord

variable {t : List Char}

theorem not_blank (ht : IsWord t) {c : Char} (hc : c ∈ t) : isBlank c = false :=
  ((wordChar_iff c).1 (ht.chars c hc)).1

theorem ne_semicolon (ht : IsWord t) {c : Char} (hc : c ∈ t) : c ≠ ';' :=
  ((wordChar_iff c).1 (ht.chars c hc)).2.1

theorem comma_not_mem (ht : IsWord t) : ',' ∉ t := fun hc =>
  ((wordChar_iff ',').1 (ht.chars _ hc)).2.2 rfl

end IsWord

/-- Text that neither begins nor ends in a blank is left alone. -/
theorem trim_of_ends {cs : List Char} (hne : cs ≠ []) (hhead : isBlank (cs.head hne) = false)
    (hlast : isBlank (cs.getLast hne) = false) : trim cs = cs := by
  have hdrop : cs.dropWhile isBlank = cs := by
    rw [List.dropWhile_eq_self_iff]
    intro hl
    rw [← List.head_eq_getElem_zero hne]
    simp [hhead]
  have hrdrop : cs.rdropWhile isBlank = cs := List.rdropWhile_eq_self_iff.2 fun _ => by simp [hlast]
  rw [trim, hdrop]
  exact hrdrop

theorem IsWord.trim_eq {t : List Char} (ht : IsWord t) : trim t = t :=
  trim_of_ends ht.ne_nil (ht.not_blank (List.head_mem _)) (ht.not_blank (List.getLast_mem _))

/-- Text that begins and ends in words is left alone. -/
theorem trim_between_words {t u : List Char} (ht : IsWord t) (hu : IsWord u) (mid : List Char) :
    trim (t ++ (mid ++ u)) = t ++ (mid ++ u) := by
  have hmu : mid ++ u ≠ [] := List.append_ne_nil_of_right_ne_nil _ hu.ne_nil
  refine trim_of_ends (List.append_ne_nil_of_left_ne_nil ht.ne_nil _) ?_ ?_
  · rw [List.head_append_of_ne_nil ht.ne_nil]
    exact ht.not_blank (List.head_mem _)
  · rw [List.getLast_append_of_ne_nil _ hmu, List.getLast_append_of_ne_nil _ hu.ne_nil]
    exact hu.not_blank (List.getLast_mem _)

/-! ### Lines -/

/-- The parts between commas, with their blanks trimmed: one. -/
theorem commaParts_word {t : List Char} (ht : IsWord t) : commaParts t = [t] := by
  rw [commaParts, List.splitOn_eq_singleton ht.comma_not_mem, List.map_singleton, ht.trim_eq]

/-- The parts between commas, with their blanks trimmed: two. -/
theorem commaParts_pair {t u : List Char} (ht : IsWord t) (hu : IsWord u) :
    commaParts (t ++ ',' :: ' ' :: u) = [t, u] := by
  have hu' : ',' ∉ ' ' :: u := by simp [hu.comma_not_mem]
  rw [commaParts, List.splitOn_append_cons_self_of_not_mem ht.comma_not_mem,
    List.splitOn_eq_singleton hu', List.map_cons, List.map_singleton, trim_blank, ht.trim_eq, hu.trim_eq]

/-- A line of a mnemonic, a blank and operands has this mnemonic and these operands (R92). -/
theorem parseLine_named {name rest : List Char} (hname : IsWord name) (hcmd : name ≠ ['.', 'c', 'm', 'd'])
    (hrest : rest ≠ []) (hsemi : ';' ∉ rest) (htrim : trim rest = rest)
    (hline : trim (name ++ ' ' :: rest) = name ++ ' ' :: rest) :
    parseLine (name ++ ' ' :: rest) =
      (parseOperands (commaParts rest)).map fun xs => .named (name.map upper) xs := by
  have hbody : (name ++ ' ' :: rest).takeWhile (fun c => c ≠ ';') = name ++ ' ' :: rest := by
    rw [List.takeWhile_eq_self_iff]
    intro c hc
    rcases List.mem_append.1 hc with hc | hc
    · exact decide_eq_true (hname.ne_semicolon hc)
    · simp only [List.mem_cons] at hc
      rcases hc with rfl | hc
      · decide
      · exact decide_eq_true fun h => hsemi (h ▸ hc)
  have hnotBlank : ∀ c ∈ name, (!isBlank c) = true := fun c hc => by simp [hname.not_blank hc]
  have htake : (name ++ ' ' :: rest).takeWhile (fun c => !isBlank c) = name := by
    rw [List.takeWhile_append_of_pos hnotBlank, List.takeWhile_cons_of_neg (by decide), List.append_nil]
  have hdrop : (name ++ ' ' :: rest).dropWhile (fun c => !isBlank c) = ' ' :: rest := by
    rw [List.dropWhile_append_of_pos hnotBlank, List.dropWhile_cons_of_neg (by decide)]
  simp only [parseLine, hbody, hline, htake, hdrop, trim_blank, htrim]
  simp [hcmd, hrest]

section

variable {name p q : List Char} {x y : AsmOperand}

/-- A line of a mnemonic and one operand. -/
theorem parseLine_one (hname : IsWord name) (hcmd : name ≠ ['.', 'c', 'm', 'd']) (hp : IsWord p)
    (hx : parseOperand p = .ok x) :
    parseLine (name ++ ' ' :: p) = .ok (.named (name.map upper) [x]) := by
  rw [parseLine_named hname hcmd hp.ne_nil (fun h => hp.ne_semicolon h rfl) hp.trim_eq
    (trim_between_words hname hp [' ']), commaParts_word hp]
  simp only [parseOperands, hx]
  rfl

/-- A line of a mnemonic and two operands. -/
theorem parseLine_two (hname : IsWord name) (hcmd : name ≠ ['.', 'c', 'm', 'd']) (hp : IsWord p)
    (hq : IsWord q) (hx : parseOperand p = .ok x) (hy : parseOperand q = .ok y) :
    parseLine (name ++ ' ' :: (p ++ ',' :: ' ' :: q)) = .ok (.named (name.map upper) [x, y]) := by
  have hsemi : ';' ∉ p ++ ',' :: ' ' :: q := by
    simp only [List.mem_append, List.mem_cons, not_or]
    exact ⟨fun h => hp.ne_semicolon h rfl, by decide, by decide, fun h => hq.ne_semicolon h rfl⟩
  have hline : trim (name ++ ' ' :: (p ++ ',' :: ' ' :: q)) = name ++ ' ' :: (p ++ ',' :: ' ' :: q) := by
    simpa using trim_between_words hname hq (' ' :: (p ++ [',', ' ']))
  rw [parseLine_named hname hcmd (List.append_ne_nil_of_left_ne_nil hp.ne_nil _) hsemi
    (trim_between_words hp hq [',', ' ']) hline, commaParts_pair hp hq]
  simp only [parseOperands, hx, hy]
  rfl

end

/-! ### Operands -/

/-- The operand that a printed field spells: its register if it is selected, and otherwise a literal. -/
def operandOf (register : AsmOperand) (x : Source) : AsmOperand :=
  if x.sel then register else .lit x.imm.toNat

theorem isWord_literal (v : Word) : IsWord ('#' :: hexForm v) where
  ne_nil := List.cons_ne_nil _ _
  chars c hc := by
    simp only [hexForm, List.mem_cons, List.mem_append, List.cons_append] at hc
    rcases hc with rfl | rfl | rfl | hc | rfl | hc
    · decide
    · decide
    · decide
    · exact wordChar_of_plainChar (plainChar_hexDigits _ _ c hc)
    · decide
    · exact wordChar_of_plainChar (plainChar_hexDigits _ _ c hc)

theorem isWord_r0 : IsWord ['R', '0'] := ⟨List.cons_ne_nil _ _, List.all_eq_true.1 rfl⟩

theorem isWord_r1 : IsWord ['R', '1'] := ⟨List.cons_ne_nil _ _, List.all_eq_true.1 rfl⟩

theorem isWord_printSource {register : List Char} (h : IsWord register) (x : Source) :
    IsWord (printSource register x) := by
  rw [printSource]
  split
  · exact h
  · exact isWord_literal x.imm

/-- A printed field is read as the operand that it spells (R93). -/
theorem parseOperand_printSource {register : List Char} {r : AsmOperand} (h : parseOperand register = .ok r)
    (x : Source) : parseOperand (printSource register x) = .ok (operandOf r x) := by
  rw [printSource, operandOf]
  split
  · exact h
  · rw [parseOperand, parseNumber_hexForm]

/-- A field that the assembler can spell presents 0 when it is selected. -/
theorem source_eq_res {x : Source} (hsel : x.sel = true) (h : x.canonical = true) : x = .res := by
  obtain ⟨sel, imm⟩ := x
  obtain rfl : sel = true := hsel
  obtain rfl : imm = 0 := by simpa [Source.canonical] using h
  rfl

/-- The literal of a field that is not selected gives the field back (R93). -/
theorem literal_eq_source {x : Source} (hsel : x.sel = false) :
    (literalField x.imm.toNat).map Source.lit = .ok x := by
  rw [literalField_toNat, ← show (⟨false, x.imm⟩ : Source) = x by rw [← hsel]]
  rfl

theorem assembleA_operandOf {x : Source} (h : x.canonical = true) :
    assembleA (operandOf .r0 x) = .ok x := by
  cases hsel : x.sel with
  | true => rw [operandOf, hsel, if_pos rfl, source_eq_res hsel h]; rfl
  | false => rw [operandOf, hsel]; exact literal_eq_source hsel

theorem assembleB_operandOf {x : Source} (h : x.canonical = true) :
    assembleB (operandOf .r1 x) = .ok x := by
  cases hsel : x.sel with
  | true => rw [operandOf, hsel, if_pos rfl, source_eq_res hsel h]; rfl
  | false => rw [operandOf, hsel]; exact literal_eq_source hsel

/-! ### Mnemonics -/

/-- The letters of the mnemonics of R82. -/
def isCapital (c : Char) : Bool := decide (65 ≤ c.toNat ∧ c.toNat ≤ 90)

theorem mnemonicOf_capitals (i : Instr) : ∀ c ∈ mnemonicOf i, isCapital c = true :=
  List.all_eq_true.1 (by cases i <;> rfl)

theorem mnemonicOf_ne_nil (i : Instr) : mnemonicOf i ≠ [] := by
  cases i <;> exact List.cons_ne_nil _ _

theorem upper_of_isCapital {c : Char} (h : isCapital c = true) : upper c = c := by
  have hc : 65 ≤ c.toNat ∧ c.toNat ≤ 90 := of_decide_eq_true h
  rw [upper, if_neg (by omega)]

theorem wordChar_of_isCapital {c : Char} (h : isCapital c = true) : wordChar c = true := by
  rw [wordChar_iff]
  refine ⟨?_, ?_, ?_⟩
  · rw [isBlank, Bool.or_eq_false_iff, decide_eq_false_iff_not, decide_eq_false_iff_not]
    constructor <;> rintro rfl <;> revert h <;> decide
  · rintro rfl
    revert h
    decide
  · rintro rfl
    revert h
    decide

theorem isWord_mnemonicOf (i : Instr) : IsWord (mnemonicOf i) :=
  ⟨mnemonicOf_ne_nil i, fun c hc => wordChar_of_isCapital (mnemonicOf_capitals i c hc)⟩

theorem mnemonicOf_ne_cmd (i : Instr) : mnemonicOf i ≠ ['.', 'c', 'm', 'd'] := fun h =>
  absurd (mnemonicOf_capitals i '.' (by simp [h])) (by decide)

theorem map_upper_mnemonicOf (i : Instr) : (mnemonicOf i).map upper = mnemonicOf i :=
  (List.map_congr_left fun c hc => upper_of_isCapital (mnemonicOf_capitals i c hc)).trans (List.map_id _)

/-- A mnemonic names the command of its FUNC value: the 35 mnemonics differ. -/
theorem commandNamed_mnemonicOf (i : Instr) (a b : Source) :
    commandNamed (mnemonicOf i) a b = (decodeFunc i.func a b).toOption := by
  cases i <;> rfl

/-- The unary commands of R87, by their FUNC values. -/
theorem unary_eq_func_mem (i : Instr) :
    i.unary = decide (i.func ∈ [0x03, 0x18, 0x19, 0x1A, 0x1B, 0x1C, 0x1D, 0x1E, 0x1F]) := by
  cases i <;> rfl

theorem unary_of_func {i j : Instr} (h : i.func = j.func) : i.unary = j.unary := by
  rw [unary_eq_func_mem, unary_eq_func_mem, h]

/-! ### Commands -/

/-- The operands that a printed command spells: a unary command has no second one (R95). -/
def operandsOf (i : Instr) : List AsmOperand :=
  operandOf .r0 i.srcA :: if i.unary then [] else [operandOf .r1 i.srcB]

/-- A command is printed as its mnemonic and its operands (R95). -/
theorem disassemble_encode (i : Instr) :
    disassemble (encode i) = mnemonicOf i ++ ' ' :: (printSource ['R', '0'] i.srcA ++
      if i.unary then [] else ',' :: ' ' :: printSource ['R', '1'] i.srcB) := by
  simp only [disassemble, decodeOfEncode i, encode_srcA, encode_srcB, List.append_assoc, List.cons_append]

/-- A printed command is read as its mnemonic and its operands. -/
theorem parseLine_disassemble (i : Instr) :
    parseLine (disassemble (encode i)) = .ok (.named (mnemonicOf i) (operandsOf i)) := by
  have hwordA := isWord_printSource isWord_r0 i.srcA
  have hwordB := isWord_printSource isWord_r1 i.srcB
  have hparseA := parseOperand_printSource (register := ['R', '0']) rfl i.srcA
  have hparseB := parseOperand_printSource (register := ['R', '1']) rfl i.srcB
  rw [disassemble_encode, operandsOf]
  cases i.unary with
  | true =>
    have h := parseLine_one (isWord_mnemonicOf i) (mnemonicOf_ne_cmd i) hwordA hparseA
    simpa [map_upper_mnemonicOf] using h
  | false =>
    have h := parseLine_two (isWord_mnemonicOf i) (mnemonicOf_ne_cmd i) hwordA hwordB hparseA hparseB
    simpa [map_upper_mnemonicOf] using h

theorem wellFormed_iff (i : Instr) :
    i.wellFormed = true ↔
      i.srcA.canonical = true ∧ i.srcB.canonical = true ∧ (i.unary = true → i.srcB = .lit 0) := by
  cases h : i.unary <;> simp [Instr.wellFormed, Instr.unaryFieldClear, h, and_assoc, Source.lit]

/-- The operands that a printed command spells are assembled to its fields (R92). -/
theorem assembleFields_operandsOf {i : Instr} (h : i.wellFormed = true) :
    assembleFields i.unary (operandsOf i) = .ok (i.srcA, i.srcB) := by
  obtain ⟨hcanonA, hcanonB, hclear⟩ := (wellFormed_iff i).1 h
  have hA := assembleA_operandOf hcanonA
  have hB := assembleB_operandOf hcanonB
  rw [operandsOf]
  cases hunary : i.unary with
  | true => rw [if_pos rfl, hclear hunary, assembleFields, if_pos rfl, hA]; rfl
  | false => simp [assembleFields, hA, hB]

/-- The mnemonic and the operands of a printed command are assembled to it (R92). -/
theorem assembleNamed_operandsOf {i : Instr} (h : i.wellFormed = true) :
    assembleNamed (mnemonicOf i) (operandsOf i) = .ok [i] := by
  obtain ⟨j, hj⟩ := decodeFunc_of_mem_definedFuncs (func_mem_definedFuncs i) (.lit 0) (.lit 0)
  obtain ⟨hfunc, -, -⟩ := decodeFunc_ok hj
  have hname : commandNamed (mnemonicOf i) (.lit 0) (.lit 0) = some j := by
    rw [commandNamed_mnemonicOf, hj]; rfl
  have hself : commandNamed (mnemonicOf i) i.srcA i.srcB = some i := by
    rw [commandNamed_mnemonicOf, decodeFunc_func]; rfl
  simp only [assembleNamed, hname, unary_of_func hfunc, assembleFields_operandsOf h, Except.map, hself,
    Option.toList]

/-- Settles O60: the printed line is read as the mnemonic and the operands of the command, and these are
assembled to it. -/
theorem assembleOfDisassemble : Obligations.AssembleOfDisassemble := by
  intro i h
  simp only [assembleText, parseLine_disassemble, assembleLine, assembleNamed_operandsOf h, Except.map,
    List.map_singleton]

end Sys2Proof
end

section
/-! SUPPORT. The family of 40_add_compare.md: the effect of a command that writes RES0 alone and reports no
error (R32, R34), the negative of the signed reading (R103), and the document's comparison by words (R104,
R105). -/

namespace Sys2Proof

open Sys2Proof.Machine

/-! ### Commands that write RES0 alone -/

/-- An unchecked command that does not write RES1 changes RES0, reports SUCCESS (R34) and keeps everything
else (R32). -/
theorem exec_of_unchecked {i : Instr} (hkeep : i.writesRes1 = false) (hchecked : i.checked = false)
    {s : State} {r : Word} (hr : (results i (s.operandA i.srcA) (s.operandB i.srcB) s.res1).r0 = r) :
    exec i s = .next { s with res0 := r, status := .success, valid := true, pending := none } := by
  rw [exec_eq, hr, results_keep hkeep, results_st_of_unchecked hchecked]
  rfl

/-! ### PASS and the adder -/

/-- Settles O27: the two results of PASS are its operands. -/
theorem passCopiesBothOperands : Obligations.PassCopiesBothOperands :=
  fun a b s => ⟨decodeFunc_func (.pass a b), exec_eq (.pass a b) s⟩

/-- Settles O28: ADD writes the sum by words, which is the wrapped sum of either reading. -/
theorem addIsWrappedSum : Obligations.AddIsWrappedSum := by
  intro a b s x y lo c hi
  refine ⟨decodeFunc_func (.add a b), exec_of_unchecked rfl rfl (addWords_eq x y), ?_, ?_⟩
  · exact (addWords_eq x y).symm
  · rw [← addWords_eq, addWords_eq_signed]

/-- Settles O29: SUB writes the difference by words, which is the wrapped difference of either reading. -/
theorem subIsWrappedDifference : Obligations.SubIsWrappedDifference := by
  intro a b s x y lo bw hi
  refine ⟨decodeFunc_func (.sub a b), exec_of_unchecked rfl rfl (subWords_eq x y), ?_, ?_⟩
  · exact (subWords_eq x y).symm
  · rw [← subWords_eq, subWords_eq_signed]

/-- The negative is that of the signed reading too. -/
theorem negWord_eq_signed (x : Word) : negWord x = w128 (-sVal x) := by
  have hx := sVal_emod x
  rw [negWord_eq, w128_eq_iff]
  omega

/-- Settles O30: NEG writes the complement plus 1, which is the wrapped negative of either reading. -/
theorem negIsWrappedNegative : Obligations.NegIsWrappedNegative := by
  intro a b s x
  refine ⟨decodeFunc_func (.neg a b), exec_of_unchecked rfl rfl (negWord_eq x), ?_, ?_⟩
  · exact (negWord_eq x).symm
  · rw [← negWord_eq, negWord_eq_signed]

/-- Settles O33: the three functions are the ring operations on patterns, and the signed forms are those of
the closed forms. -/
theorem adderLaws : Obligations.AdderLaws := by
  intro a b
  refine ⟨?_, ?_, ?_, ?_, addWords_eq_signed a b, subWords_eq_signed a b⟩
  · rw [addWords_eq_add, subWords_eq_sub, BitVec.add_sub_cancel]
  · rw [subWords_eq_sub, addWords_eq_add, BitVec.sub_add_cancel]
  · rw [addWords_eq_add, addWords_eq_add, BitVec.add_comm]
  · rw [negWord_eq_neg, subWords_eq_sub]
    exact (BitVec.zero_sub a).symm

/-! ### The comparator -/

/-- The answer in the patterns of -1, 0 and 1. -/
theorem threeWay_eq (m n : Int) :
    threeWay m n = if m < n then w128 (-1) else if m = n then w128 0 else w128 1 := by
  rw [threeWay, ONES_eq]

/-- The answer depends on the order alone. -/
theorem threeWay_congr {m n m' n' : Int} (hlt : m < n ↔ m' < n') (heq : m = n ↔ m' = n') :
    threeWay m n = threeWay m' n' := by
  simp only [threeWay, hlt, heq]

theorem highWord_append_lowWord (x : Word) : (highWord x ++ lowWord x : Word) = x := by
  rw [← uVal_inj, uVal_append, uVal_highWord, uVal_lowWord]
  omega

theorem uVal_eq_words (x : Word) : uVal x = uVal (highWord x) * 2 ^ 64 + uVal (lowWord x) := by
  rw [← uVal_append, highWord_append_lowWord]

/-- The sign lies in the high word; the low word counts up from there. -/
theorem sVal_eq_words (x : Word) : sVal x = sVal (highWord x) * 2 ^ 64 + uVal (lowWord x) := by
  have h : sVal (highWord x ++ lowWord x : Word) = 2 ^ 64 * sVal (highWord x) + uVal (lowWord x) :=
    BitVec.toInt_append
  rw [highWord_append_lowWord] at h
  rw [h, mul_comm]

/-- Low words decide between equal high words, and never against them: they are below 2^64. -/
theorem wordwiseThreeWay_eq (hx hy : Int) (lx ly : BitVec 64) :
    wordwiseThreeWay hx hy (uVal lx) (uVal ly) =
      threeWay (hx * 2 ^ 64 + uVal lx) (hy * 2 ^ 64 + uVal ly) := by
  have hlx := uVal_lt64 lx
  have hly := uVal_lt64 ly
  have hlx0 := uVal_nonneg lx
  have hly0 := uVal_nonneg ly
  rw [wordwiseThreeWay]
  split
  · -- equal high words
    exact threeWay_congr (by omega) (by omega)
  · -- unequal high words
    exact threeWay_congr (by omega) (by omega)

theorem compareUnsignedWords_eq (x y : Word) :
    compareUnsignedWords x y = threeWay (uVal x) (uVal y) := by
  rw [compareUnsignedWords, wordwiseThreeWay_eq, ← uVal_eq_words, ← uVal_eq_words]

theorem compareSignedWords_eq (x y : Word) : compareSignedWords x y = threeWay (sVal x) (sVal y) := by
  rw [compareSignedWords, wordwiseThreeWay_eq, ← sVal_eq_words, ← sVal_eq_words]

/-- Settles O31: CMPU writes the answer for the unsigned readings, which is that of the comparison by
words. -/
theorem cmpuOrdersUnsigned : Obligations.CmpuOrdersUnsigned := by
  intro a b s x y
  refine ⟨decodeFunc_func (.cmpu a b), exec_of_unchecked rfl rfl (compareUnsignedWords_eq x y).symm, ?_⟩
  rw [compareUnsignedWords_eq, threeWay_eq]

/-- Settles O32: CMPS writes the answer for the signed readings, which is that of the comparison by words. -/
theorem cmpsOrdersSigned : Obligations.CmpsOrdersSigned := by
  intro a b s x y
  refine ⟨decodeFunc_func (.cmps a b), exec_of_unchecked rfl rfl (compareSignedWords_eq x y).symm, ?_⟩
  rw [compareSignedWords_eq, threeWay_eq]

end Sys2Proof
end

section
/-! SUPPORT. The family of 41_multiply.md: the products of values split in two parts (R120, R121). -/

namespace Sys2Proof

open Sys2Proof.Machine

/-- The product of two values written in two parts each, base `m`. -/
theorem mul_of_parts (m xh xl yh yl : Int) :
    (xh * m + xl) * (yh * m + yl) = xl * yl + (xl * yh + xh * yl) * m + xh * yh * (m * m) := by
  ring

/-- The carries of the cross products and the product of the high words lie at or above bit 128, so the
construction from three word products drops multiples of 2^128 only (R120). -/
theorem mulFromWords_eq (x y : Word) : mulFromWords x y = w128 (uVal x * uVal y) := by
  rw [mulFromWords, w128_eq_iff, uVal_eq_words x, uVal_eq_words y, mul_of_parts]
  omega

/-- Settles O34: MUL writes the wrapped product, which is that of the signed readings and of the three word
products. -/
theorem mulIsWrappedProduct : Obligations.MulIsWrappedProduct := by
  intro a b s x y
  exact ⟨decodeFunc_func (.mul a b), exec_of_unchecked rfl rfl rfl, w128_mul_signed x y,
    (mulFromWords_eq x y).symm⟩

theorem uVal_eq_halves (v : BitVec 64) :
    uVal v = uVal (v.extractLsb' 32 32) * 2 ^ 32 + uVal (v.extractLsb' 0 32) := by
  have hv := v.isLt
  simp only [uVal, BitVec.extractLsb'_toNat, Nat.shiftRight_eq_div_pow]
  omega

/-- The four cross products of the halves add up to the whole product (R121). -/
theorem mulFromHalves_eq (x y : BitVec 64) : mulFromHalves x y = w128 (uVal x * uVal y) := by
  rw [mulFromHalves, uVal_eq_halves x, uVal_eq_halves y, mul_of_parts]
  rfl

/-- The product of two words fits in 128 bits (R121). -/
theorem uVal_mul_le_UMAX (x y : BitVec 64) : uVal x * uVal y ≤ UMAX :=
  calc uVal x * uVal y ≤ (2 ^ 64 - 1) * (2 ^ 64 - 1) :=
        mul_le_mul (Int.le_sub_one_of_lt (uVal_lt64 x)) (Int.le_sub_one_of_lt (uVal_lt64 y))
          (uVal_nonneg y) (by decide)
    _ ≤ UMAX := by decide

/-- Settles O35: MULW writes the product of the low words, which does not wrap and is that of the four cross
products. -/
theorem mulwIsFullProduct : Obligations.MulwIsFullProduct := by
  intro a b s x y
  have hexact : uVal (w128 (uVal x * uVal y)) = uVal x * uVal y :=
    uVal_w128_of_range (mul_nonneg (uVal_nonneg x) (uVal_nonneg y)) (uVal_mul_le_UMAX x y)
  exact ⟨w128 (uVal x * uVal y), decodeFunc_func (.mulw a b), exec_of_unchecked rfl rfl rfl, hexact,
    (mulFromHalves_eq x y).symm⟩

end Sys2Proof
end

section
/-! SUPPORT. The family of 42_shift_rotate.md: the two words of a wrapped value and how a shift carries bits
across their boundary (R130, R131), the floor of R132 as integer division, and the rotations as inverses of
each other (R133 to R135). -/

namespace Sys2Proof

open Sys2Proof.Machine

/-! ### Shift left -/

theorem w64_eq_iff {m n : Int} : w64 m = w64 n ↔ m % 2 ^ 64 = n % 2 ^ 64 := by
  rw [← uVal_inj, uVal_w64, uVal_w64]

theorem lowWord_w128 (n : Int) : lowWord (w128 n) = w64 n := by
  rw [← uVal_inj, uVal_lowWord, uVal_w128, uVal_w64]
  omega

theorem highWord_w128 (n : Int) : highWord (w128 n) = w64 (n / 2 ^ 64) := by
  rw [← uVal_inj, uVal_highWord, uVal_w128, uVal_w64]
  omega

/-- The shifted words: what leaves the low one enters the high one (R130). -/
theorem uVal_mul_two_pow_eq_words (x : Word) (k : Nat) :
    uVal x * 2 ^ k = uVal (highWord x) * 2 ^ k * 2 ^ 64 + uVal (lowWord x) * 2 ^ k := by
  rw [uVal_eq_words x]
  ring

/-- Below 64 the upper `k` bits of the low word cross into the high word (R130). -/
theorem shiftLeft_words_of_le {x : Word} {k : Nat} (hk : k ≤ 64) :
    lowWord (shiftLeft x k) = w64 (uVal (lowWord x) * 2 ^ k) ∧
      highWord (shiftLeft x k) =
        w64 (uVal (highWord x) * 2 ^ k + uVal (lowWord x) / 2 ^ (64 - k)) := by
  have hcross : uVal (lowWord x) * 2 ^ k / 2 ^ 64 = uVal (lowWord x) / 2 ^ (64 - k) := by
    rw [← pow_sub_mul_pow (2 : Int) hk, Int.mul_ediv_mul_of_pos_left _ _ (by positivity)]
  rw [shiftLeft_eq, uVal_mul_two_pow_eq_words, lowWord_w128, highWord_w128, w64_eq_iff, ← hcross]
  constructor
  · omega
  · congr 1
    omega

/-- From 64 on the whole low word crosses, and zeros are left in its place (R130). -/
theorem shiftLeft_words_of_ge {x : Word} {k : Nat} (hk : 64 ≤ k) :
    highWord (shiftLeft x k) = w64 (uVal (lowWord x) * 2 ^ (k - 64)) ∧ lowWord (shiftLeft x k) = 0 := by
  have hzero : (0 : BitVec 64) = w64 0 := rfl
  rw [shiftLeft_eq, uVal_mul_two_pow_eq_words, lowWord_w128, highWord_w128, hzero, w64_eq_iff, w64_eq_iff,
    ← pow_sub_mul_pow (2 : Int) hk, ← mul_assoc, ← mul_assoc]
  constructor <;> omega

theorem shiftLeft_zero (x : Word) : shiftLeft x 0 = x := if_pos rfl

theorem shiftLeft_of_ge {x : Word} {k : Nat} (hk : 128 ≤ k) : shiftLeft x k = 0 := by
  rw [shiftLeft, if_neg (by omega), if_pos hk]
  rfl

/-- Settles O36: SHL writes the wrapped product with the power of two, whose words are those of the two
crossings. -/
theorem shlMultipliesByPowerOfTwo : Obligations.ShlMultipliesByPowerOfTwo := by
  intro a b s x k
  refine ⟨shiftLeft x k, decodeFunc_func (.shl a b), exec_of_unchecked rfl rfl rfl, shiftLeft_eq x k,
    ?_, shiftLeft_of_ge, ?_, ?_⟩
  · intro hk
    rw [hk, shiftLeft_zero]
  · intro _ hk
    exact shiftLeft_words_of_le hk.le
  · intro hk _
    exact shiftLeft_words_of_ge hk

/-! ### Shifts right -/

theorem shiftRightLogical_of_ge {x : Word} {k : Nat} (hk : 128 ≤ k) : shiftRightLogical x k = 0 := if_pos hk

/-- From 64 on the quotient is that of the high word alone (R131). -/
theorem uVal_shiftRightLogical_of_ge {x : Word} {k : Nat} (hk : 64 ≤ k) :
    uVal (shiftRightLogical x k) = uVal (highWord x >>> (k - 64)) := by
  have hshift : uVal (highWord x >>> (k - 64)) = uVal (highWord x) / 2 ^ (k - 64) := by
    simp [uVal, Nat.shiftRight_eq_div_pow]
  rw [hshift, uVal_shiftRightLogical, uVal_highWord, Int.ediv_ediv_of_nonneg (by positivity), ← pow_add,
    Nat.add_sub_cancel' hk]

/-- Settles O37: SHRU writes the quotient by the power of two, which fits in the low word from 64 on. -/
theorem shruDividesByPowerOfTwo : Obligations.ShruDividesByPowerOfTwo := by
  intro a b s x k
  refine ⟨shiftRightLogical x k, decodeFunc_func (.shru a b), exec_of_unchecked rfl rfl rfl,
    uVal_shiftRightLogical x k, shiftRightLogical_of_ge, fun hk _ => ?_⟩
  have hquot := uVal_shiftRightLogical_of_ge (x := x) hk
  have hnonneg := uVal_nonneg (highWord x >>> (k - 64))
  have hlt := uVal_lt64 (highWord x >>> (k - 64))
  have hzero : uVal (0 : BitVec 64) = 0 := rfl
  rw [← uVal_inj, ← uVal_inj, uVal_lowWord, uVal_highWord, hquot, hzero]
  omega

/-- The floor of the rational quotient is the integer division that rounds toward minus infinity (R132). -/
theorem floor_div_two_pow (n : Int) (k : Nat) : Int.floor ((n : Rat) / 2 ^ k) = n / 2 ^ k := by
  exact_mod_cast Rat.floor_intCast_div_natCast n (2 ^ k)

/-- Settles O38: SHRS writes the floored quotient of the signed reading, and from 128 on its sign bits. -/
theorem shrsFloorsSignedQuotient : Obligations.ShrsFloorsSignedQuotient := by
  intro a b s x k
  refine ⟨shiftRightArith x k, decodeFunc_func (.shrs a b), exec_of_unchecked rfl rfl rfl, ?_,
    fun hk => if_pos hk⟩
  rw [sVal_shiftRightArith, floor_div_two_pow]

/-! ### Rotations -/

theorem rotateAmount_lt (b : Word) : rotateAmount b < 128 := by
  rw [rotateAmount_eq]
  omega

/-- Settles O39: ROL writes the left rotation by `u(B) mod 128`. -/
theorem rolMovesEveryBitLeft : Obligations.RolMovesEveryBitLeft := by
  intro a b s x n
  refine ⟨rotateLeftBy x n, decodeFunc_func (.rol a b), exec_of_unchecked rfl rfl ?_, rfl, fun i hi => ?_⟩
  · exact congrArg (rotateLeftBy x) (rotateAmount_eq (s.operandB b))
  · exact rotateLeftBy_bit x n i (Nat.mod_lt _ (by decide)) hi

/-- Settles O40: ROR writes the right rotation by `u(B) mod 128`. -/
theorem rorMovesEveryBitRight : Obligations.RorMovesEveryBitRight := by
  intro a b s x n
  refine ⟨rotateRightBy x n, decodeFunc_func (.ror a b), exec_of_unchecked rfl rfl ?_, rfl, fun i hi => ?_⟩
  · exact congrArg (rotateRightBy x) (rotateAmount_eq (s.operandB b))
  · exact rotateRightBy_bit x n i (Nat.mod_lt _ (by decide)) hi

theorem rotateRightBy_rotateLeftBy (x : Word) {n : Nat} (hn : n < 128) :
    rotateRightBy (rotateLeftBy x n) n = x := by
  apply BitVec.eq_of_getLsbD_eq
  intro i hi
  rw [rotateRightBy_bit _ n i hn hi, rotateLeftBy_bit x n i hn hi]

theorem rotateLeftBy_eq_rotateRightBy (x : Word) {n : Nat} (hn : n < 128) :
    rotateLeftBy x n = rotateRightBy x ((128 - n) % 128) := by
  rcases Nat.eq_zero_or_pos n with rfl | hpos
  · -- both amounts are 0, and a shift by 128 clears the word
    simp [rotateLeftBy, rotateRightBy, BitVec.ushiftRight_eq_zero]
  · -- the same two shifts, in the other order
    rw [Nat.mod_eq_of_lt (by omega), rotateLeftBy, rotateRightBy, Nat.sub_sub_self hn.le, BitVec.or_comm]

/-! ### Shifts as products and quotients -/

theorem shiftLeft_eq_mulWord (x : Word) {k : Nat} (hk : k < 128) :
    shiftLeft x k = mulWord x (w128 (2 ^ k)) := by
  rw [shiftLeft_eq, mulWord, uVal_two_pow k hk]

theorem shiftRightLogical_eq_divUnsigned (x : Word) {k : Nat} (hk : k < 128) :
    shiftRightLogical x k = (divUnsigned x (w128 (2 ^ k))).1 := by
  have hpow := uVal_two_pow k hk
  have hne : uVal (w128 (2 ^ k)) ≠ 0 := by rw [hpow]; positivity
  obtain ⟨hquot, -⟩ := uVal_divUnsigned x _ hne
  rw [← uVal_inj, uVal_shiftRightLogical, hquot, hpow]

/-- Settles O41: the rotations are inverse and complementary, and the shifts are the multiplier's and the
divider's answers for a power of two. -/
theorem shiftAndRotateLaws : Obligations.ShiftAndRotateLaws :=
  ⟨fun a b => rotateRightBy_rotateLeftBy a (rotateAmount_lt b),
    fun a _ hn => rotateLeftBy_eq_rotateRightBy a hn,
    fun a _ hk => ⟨shiftLeft_eq_mulWord a hk, shiftRightLogical_eq_divUnsigned a hk⟩⟩

end Sys2Proof
end

section
/-! SUPPORT. The family of 43_divide.md: the division law determines the unsigned results, from which long
division (R154) and the fast paths (R155) follow; the readings of the signed results, with the one quotient
that does not fit (R151, R152); and the signed divider as the unsigned one on magnitudes (R151, R154). -/

namespace Sys2Proof

open Sys2Proof.Machine

/-! ### The unsigned divider -/

theorem divUnsigned_of_zero (x : Word) {y : Word} (h : uVal y = 0) : divUnsigned x y = (0, 0) := if_pos h

/-- The division law determines both results (R152). -/
theorem divUnsigned_of_law {x y q r : Word} (hlaw : uVal y * uVal q + uVal r = uVal x)
    (hlt : uVal r < uVal y) : divUnsigned x y = (q, r) := by
  have hnonneg := uVal_nonneg r
  have hpos : 0 < uVal y := by omega
  obtain ⟨hq, hr⟩ := (Int.ediv_emod_unique hpos).2 ⟨(Int.add_comm _ _).trans hlaw, hnonneg, hlt⟩
  rw [divUnsigned, if_neg hpos.ne', hq, hr, w128_uVal, w128_uVal]

/-- The results obey the division law (R152). -/
theorem divUnsigned_law (x : Word) {y : Word} (h : uVal y ≠ 0) :
    uVal y * uVal (divUnsigned x y).1 + uVal (divUnsigned x y).2 = uVal x ∧
      uVal (divUnsigned x y).2 < uVal y := by
  have hy := uVal_nonneg y
  obtain ⟨hq, hr⟩ := uVal_divUnsigned x y h
  rw [hq, hr]
  exact ⟨Int.mul_ediv_add_emod _ _, Int.emod_lt_of_pos _ (by omega)⟩

/-- Settles O42: DIVU writes the divider's quotient and remainder. -/
theorem divuQuotientAndRemainder : Obligations.DivuQuotientAndRemainder := by
  intro a b s x y
  refine ⟨(divUnsigned x y).1, (divUnsigned x y).2, decodeFunc_func (.divu a b), exec_eq (.divu a b) s,
    fun h => ?_, uVal_divUnsigned x y⟩
  rw [divUnsigned_of_zero x h]
  exact ⟨rfl, rfl⟩

/-! ### Fast paths -/

theorem divUnsigned_of_lt {x y : Word} (h : uVal x < uVal y) : divUnsigned x y = (0, x) :=
  divUnsigned_of_law (by simp [uVal]) h

theorem divUnsigned_self {y : Word} (h : uVal y ≠ 0) : divUnsigned y y = (1, 0) := by
  have hy := uVal_nonneg y
  have h0 : uVal (0 : Word) = 0 := rfl
  exact divUnsigned_of_law (by simp [uVal]) (by omega)

theorem divUnsigned_one (x : Word) : divUnsigned x 1 = (x, 0) :=
  divUnsigned_of_law (by simp [uVal]) (by decide)

theorem uVal_ushiftRight {n : Nat} (v : BitVec n) (k : Nat) : uVal (v >>> k) = uVal v / 2 ^ k := by
  simp [uVal, Nat.shiftRight_eq_div_pow]

/-- The mask keeps the remainder by the power of two (R155). -/
theorem uVal_and_mask (x : Word) {k : Nat} (hk : k < 128) :
    uVal (x &&& w128 (2 ^ k - 1)) = uVal x % 2 ^ k := by
  have hpow : 2 ^ k ≤ UMAX := uVal_two_pow k hk ▸ uVal_le_UMAX _
  have hone : (1 : Int) ≤ 2 ^ k := one_le_pow₀ (by decide)
  have hfit : uVal (w128 (2 ^ k - 1)) = 2 ^ k - 1 := uVal_w128_of_range (by omega) (by omega)
  have hmask : (w128 (2 ^ k - 1)).toNat = 2 ^ k - 1 := by
    zify [Nat.one_le_two_pow (n := k)]
    exact hfit
  have h : (x &&& w128 (2 ^ k - 1)).toNat = x.toNat % 2 ^ k := by
    rw [BitVec.toNat_and, hmask, Nat.and_two_pow_sub_one_eq_mod]
  simp [uVal, h]

theorem divUnsigned_two_pow (x : Word) {k : Nat} (hk : k < 128) :
    divUnsigned x (w128 (2 ^ k)) = (x >>> k, x &&& w128 (2 ^ k - 1)) := by
  apply divUnsigned_of_law <;> rw [uVal_two_pow k hk, uVal_and_mask x hk]
  · rw [uVal_ushiftRight, Int.mul_ediv_add_emod]
  · exact Int.emod_lt_of_pos _ (by positivity)

/-- Settles O46: each path's results obey the division law. -/
theorem divisionFastPaths : Obligations.DivisionFastPaths := by
  intro n d
  refine ⟨divUnsigned_of_lt, ?_, ?_, ?_⟩
  · rintro rfl h
    exact divUnsigned_self h
  · rintro rfl
    exact divUnsigned_one n
  · rintro j hj rfl
    exact divUnsigned_two_pow n hj

/-! ### The signed divider -/

theorem divSigned_of_zero (x : Word) {y : Word} (h : uVal y = 0) : divSigned x y = (0, 0) := if_pos h

/-- The one quotient that does not fit wraps to SMIN (R151). -/
theorem divSigned_overflow {x y : Word} (hx : sVal x = SMIN) (hy : sVal y = -1) :
    divSigned x y = (w128 SMIN, 0) := by
  obtain rfl : w128 SMIN = x := by rw [← hx, w128_sVal]
  obtain rfl : w128 (-1) = y := by rw [← hy, w128_sVal]
  decide

theorem sVal_divSigned_quotient {x y : Word} (h : uVal y ≠ 0) (hfit : ¬ (sVal x = SMIN ∧ sVal y = -1)) :
    sVal (divSigned x y).1 = Int.tdiv (sVal x) (sVal y) := by
  obtain ⟨hlo, hhi⟩ := tdiv_bounds x y hfit
  rw [divSigned_eq x y h, tdiv_eq_Int_tdiv]
  exact sVal_w128_of_range hlo hhi

theorem sVal_divSigned_remainder (x : Word) {y : Word} (h : uVal y ≠ 0) :
    sVal (divSigned x y).2 = Int.tmod (sVal x) (sVal y) := by
  obtain ⟨hlo, hhi, -⟩ := tmod_bounds x y (sVal_ne_zero h)
  rw [divSigned_eq x y h, trem_eq_Int_tmod]
  exact sVal_w128_of_range hlo hhi

/-- Settles O43: DIVS writes the truncated quotient and its remainder, wrapped. -/
theorem divsTruncatesTowardZero : Obligations.DivsTruncatesTowardZero := by
  intro a b s x y
  refine ⟨(divSigned x y).1, (divSigned x y).2, decodeFunc_func (.divs a b), exec_eq (.divs a b) s,
    fun h => ?_, fun h => ?_, fun hx hy => ?_⟩
  · rw [divSigned_of_zero x h]
    exact ⟨rfl, rfl⟩
  · rw [divSigned_eq x y h]
    exact ⟨rfl, rfl⟩
  · rw [divSigned_overflow hx hy]
    exact ⟨by decide, rfl⟩

/-! ### Division laws -/

theorem divSigned_law {x y : Word} (h : uVal y ≠ 0) (hfit : ¬ (sVal x = SMIN ∧ sVal y = -1)) :
    sVal y * sVal (divSigned x y).1 + sVal (divSigned x y).2 = sVal x := by
  rw [sVal_divSigned_quotient h hfit, sVal_divSigned_remainder x h, Int.mul_tdiv_add_tmod]

/-- Modulo 2^128 the law holds for the quotient that does not fit too (R152). -/
theorem divSigned_law_wrapped (x : Word) {y : Word} (h : uVal y ≠ 0) :
    w128 (sVal y * sVal (divSigned x y).1 + sVal (divSigned x y).2) = x := by
  by_cases hover : sVal x = SMIN ∧ sVal y = -1
  · obtain ⟨hx, hy⟩ := hover
    rw [divSigned_overflow hx hy, hy, ← w128_sVal x, hx]
    decide
  · rw [divSigned_law h hover, w128_sVal]

/-- A remainder that is not zero has the sign of the dividend (R152). -/
theorem tmod_eq_zero_or_sign (m n : Int) : Int.tmod m n = 0 ∨ (Int.tmod m n).sign = m.sign := by
  by_cases hdvd : n ∣ m
  · exact .inl (Int.tmod_eq_zero_of_dvd hdvd)
  · exact .inr (by rw [Int.sign_tmod, if_neg hdvd])

/-- Settles O44: the laws of the two dividers' results, which DIVU and DIVS write. -/
theorem divisionLaws : Obligations.DivisionLaws := by
  intro a b s tu ts x y hne hu hs
  cases hu
  cases hs
  obtain ⟨hlaw, hlt⟩ := divUnsigned_law x hne
  obtain ⟨-, -, hmag⟩ := tmod_bounds x y (sVal_ne_zero hne)
  have hrem := sVal_divSigned_remainder x hne
  refine ⟨⟨hlaw, uVal_nonneg _, hlt⟩, divSigned_law_wrapped x hne, ?_, ?_, divSigned_law hne,
    fun hx hy => ?_⟩
  · exact hrem ▸ hmag
  · exact hrem ▸ tmod_eq_zero_or_sign _ _
  · change sVal (divSigned x y).1 = SMIN
    rw [divSigned_overflow hx hy]
    decide

/-! ### Long division -/

/-- After the last pass the results obey the division law, and the remainder fits (R154). -/
theorem divuLong_law (n : Word) {d : Word} (h : uVal d ≠ 0) :
    uVal d * uVal (divuLong n d).1 + uVal (divuLong n d).2 = uVal n ∧
      uVal (divuLong n d).2 < uVal d := by
  have hd : 0 < d.toNat := by
    simp only [uVal] at h
    omega
  have hn : 0 = n.toNat / 2 ^ 128 := (Nat.div_eq_of_lt n.isLt).symm
  obtain ⟨hlaw, hlt⟩ := longDivisionFrom_invariant n d 128 le_rfl 0 0 hd rfl (by simpa using hn)
  have hq : (divuLong n d).1 = (longDivisionFrom n d 128 0 0).1 := rfl
  have hr : (divuLong n d).2.toNat = (longDivisionFrom n d 128 0 0).2 :=
    (BitVec.toNat_ofNat _ _).trans (Nat.mod_eq_of_lt (hlt.trans d.isLt))
  rw [← hq, ← hr] at hlaw
  rw [← hr] at hlt
  rw [Int.mul_comm]
  simp only [uVal]
  exact_mod_cast And.intro hlaw hlt

theorem divuLong_eq_divUnsigned (n : Word) {d : Word} (h : uVal d ≠ 0) :
    divuLong n d = divUnsigned n d := by
  obtain ⟨hlaw, hlt⟩ := divuLong_law n h
  exact (divUnsigned_of_law hlaw hlt).symm

theorem negWord_w128 (m : Int) : negWord (w128 m) = w128 (-m) := by
  rw [negWord_eq, w128_eq_iff, uVal_w128]
  omega

theorem uVal_magnitude_ne_zero {y : Word} (h : uVal y ≠ 0) : uVal (magnitude y) ≠ 0 := by
  have := sVal_ne_zero h
  rw [uVal_magnitude]
  omega

/-- The signed divider is the unsigned one on the magnitudes, with the signs reapplied (R151). -/
theorem divSigned_eq_magnitudes (x : Word) {y : Word} (h : uVal y ≠ 0) :
    divSigned x y =
      (if decide (sVal x < 0) != decide (sVal y < 0) then
          negWord (divUnsigned (magnitude x) (magnitude y)).1
        else (divUnsigned (magnitude x) (magnitude y)).1,
        if sVal x < 0 then negWord (divUnsigned (magnitude x) (magnitude y)).2
        else (divUnsigned (magnitude x) (magnitude y)).2) := by
  rw [divSigned, if_neg h, divUnsigned, if_neg (uVal_magnitude_ne_zero h), uVal_magnitude, uVal_magnitude]
  simp only [negWord_w128, apply_ite w128]

/-- Settles O45: long division gives the unsigned results, on the magnitudes too. -/
theorem longDivisionRefinesDivider : Obligations.LongDivisionRefinesDivider := by
  intro n d h
  refine ⟨divuLong_eq_divUnsigned n h, ?_⟩
  rw [divsLong, divuLong_eq_divUnsigned _ (uVal_magnitude_ne_zero h), divSigned_eq_magnitudes n h]

end Sys2Proof
end

section
/-! SUPPORT. The family of 44_bitcount.md: `msb` and `lsb` from the counts of the two words (R171, R172), so
that the leading-zero count by words is 127 less `msb` and the trailing-zero count is `lsb`; from these what
each command writes (R170 to R178). -/

namespace Sys2Proof

open Sys2Proof.Machine

/-! ### The highest and the lowest set bit, by words -/

/-- Every bit lies in one of the two words (R9). -/
theorem getLsbD_eq_words (v : Word) (i : Nat) :
    v.getLsbD i = if i < 64 then (lowWord v).getLsbD i else (highWord v).getLsbD (i - 64) := by
  split
  case isTrue hlow => exact (lowWord_bit v i hlow).symm
  case isFalse hhigh =>
    by_cases hi : i < 128
    · rw [highWord_bit v _ (by omega), Nat.add_sub_cancel' (by omega)]
    · rw [BitVec.getLsbD_of_ge _ _ (by omega), BitVec.getLsbD_of_ge _ _ (by omega)]

theorem ne_zero_of_getLsbD {v : Word} {p : Nat} (hp : v.getLsbD p = true) : v ≠ 0 := by
  rintro rfl
  simp at hp

theorem msb_eq_of_bits {v : Word} {p : Nat} (hp : v.getLsbD p = true)
    (habove : ∀ i, p < i → v.getLsbD i = false) : msb v = p := by
  obtain ⟨-, hm, hm'⟩ := msb_spec (ne_zero_of_getLsbD hp)
  exact highest_bit_unique hm hm' hp habove

theorem lsb_eq_of_bits {v : Word} {p : Nat} (hp : v.getLsbD p = true)
    (hbelow : ∀ i, i < p → v.getLsbD i = false) : lsb v = p := by
  obtain ⟨-, hl, hl'⟩ := lsb_spec (ne_zero_of_getLsbD hp)
  exact lowest_bit_unique hl hl' hp hbelow

theorem msb_of_highWord_ne_zero {v : Word} (h : highWord v ≠ 0) : msb v = 127 - clz64 (highWord v) := by
  obtain ⟨hlt, hbit, habove⟩ := (clz64_spec _).2 h
  apply msb_eq_of_bits
  · rw [getLsbD_eq_words, if_neg (by omega), ← hbit]
    congr 1
    omega
  · intro i hi
    rw [getLsbD_eq_words, if_neg (by omega)]
    exact habove _ (by omega)

theorem lowWord_ne_zero {v : Word} (h : v ≠ 0) (hhigh : highWord v = 0) : lowWord v ≠ 0 :=
  fun hlow => h (eq_zero_of_words hhigh hlow)

theorem msb_of_highWord_eq_zero {v : Word} (h : v ≠ 0) (hhigh : highWord v = 0) :
    msb v = 63 - clz64 (lowWord v) := by
  obtain ⟨hlt, hbit, habove⟩ := (clz64_spec _).2 (lowWord_ne_zero h hhigh)
  apply msb_eq_of_bits
  · rw [getLsbD_eq_words, if_pos (by omega), hbit]
  · intro i hi
    rw [getLsbD_eq_words, hhigh]
    split
    · exact habove i hi
    · exact BitVec.getLsbD_zero

theorem lsb_of_lowWord_ne_zero {v : Word} (h : lowWord v ≠ 0) : lsb v = ctz64 (lowWord v) := by
  obtain ⟨hlt, hbit, hbelow⟩ := (ctz64_spec _).2 h
  apply lsb_eq_of_bits
  · rw [getLsbD_eq_words, if_pos hlt, hbit]
  · intro i hi
    rw [getLsbD_eq_words, if_pos (hi.trans hlt)]
    exact hbelow i hi

theorem lsb_of_lowWord_eq_zero {v : Word} (h : v ≠ 0) (hlow : lowWord v = 0) :
    lsb v = 64 + ctz64 (highWord v) := by
  obtain ⟨hlt, hbit, hbelow⟩ := (ctz64_spec _).2 fun hhigh => h (eq_zero_of_words hhigh hlow)
  apply lsb_eq_of_bits
  · rw [getLsbD_eq_words, if_neg (by omega), Nat.add_sub_cancel_left, hbit]
  · intro i hi
    rw [getLsbD_eq_words, hlow]
    split
    · exact BitVec.getLsbD_zero
    · exact hbelow _ (by omega)

/-! ### The counts by words -/

@[simp] theorem clzByWords_zero : clzByWords 0 = 128 := by decide

@[simp] theorem ctzByWords_zero : ctzByWords 0 = 128 := by decide

theorem clzByWords_of_ne_zero {v : Word} (h : v ≠ 0) : clzByWords v = 127 - msb v := by
  unfold clzByWords
  split
  case isTrue hhigh =>
    obtain ⟨hlt, -⟩ := (clz64_spec _).2 hhigh
    rw [msb_of_highWord_ne_zero hhigh]
    omega
  case isFalse hhigh =>
    rw [not_not] at hhigh
    obtain ⟨hlt, -⟩ := (clz64_spec _).2 (lowWord_ne_zero h hhigh)
    rw [msb_of_highWord_eq_zero h hhigh]
    omega

theorem ctzByWords_of_ne_zero {v : Word} (h : v ≠ 0) : ctzByWords v = lsb v := by
  unfold ctzByWords
  split
  case isTrue hlow => exact (lsb_of_lowWord_ne_zero hlow).symm
  case isFalse hlow => exact (lsb_of_lowWord_eq_zero h (not_not.1 hlow)).symm

theorem clzByWords_le (v : Word) : clzByWords v ≤ 128 := by
  by_cases h : v = 0
  · rw [h, clzByWords_zero]
  · rw [clzByWords_of_ne_zero h]
    omega

/-! ### What the commands write -/

theorem countLeadingZeros_eq (v : Word) : countLeadingZeros v = w128 (clzByWords v) := by
  by_cases h : v = 0
  · rw [countLeadingZeros, if_pos h, h, clzByWords_zero]
    rfl
  · obtain ⟨hlt, -⟩ := msb_spec h
    rw [countLeadingZeros, if_neg h, clzByWords_of_ne_zero h]
    congr 1
    omega

theorem countTrailingZeros_eq (v : Word) : countTrailingZeros v = w128 (ctzByWords v) := by
  by_cases h : v = 0
  · rw [countTrailingZeros, if_pos h, h, ctzByWords_zero]
    rfl
  · rw [countTrailingZeros, if_neg h, ctzByWords_of_ne_zero h]

/-- The width is what the leading zeros leave of 128 (R175). -/
theorem bitWidthOf_eq (v : Word) : bitWidthOf v = w128 (128 - clzByWords v : Nat) := by
  by_cases h : v = 0
  · rw [bitWidthOf, if_pos h, h, clzByWords_zero]
    rfl
  · obtain ⟨hlt, -⟩ := msb_spec h
    rw [bitWidthOf, if_neg h, clzByWords_of_ne_zero h]
    congr 1
    omega

theorem findFirstSet_eq (v : Word) : findFirstSet v = w128 (if v = 0 then -1 else lsb v) := by
  rw [apply_ite w128, ← ONES_eq, findFirstSet]

theorem findLastSet_eq (v : Word) : findLastSet v = w128 (if v = 0 then -1 else msb v) := by
  rw [apply_ite w128, ← ONES_eq, findLastSet]

/-- A count is at most 128, so it is written exactly (R14). -/
theorem uVal_count {n : Nat} (h : n ≤ 128) : uVal (w128 n) = n := by
  rw [uVal_w128]
  omega

/-- Settles O47: POPCNT writes the sum of the counts of the two words. -/
theorem popcntCountsSetBits : Obligations.PopcntCountsSetBits := by
  intro a b s x
  refine ⟨decodeFunc_func (.popcnt a b), exec_of_unchecked rfl rfl ?_, popcount_by_words x,
    popcount_add_popcount_not x⟩
  rw [popcount_by_words]
  rfl

/-- Settles O48: CLZ and CLO write the count by words, which is 127 less the highest set position. -/
theorem clzAndCloCountLeadingBits : Obligations.ClzAndCloCountLeadingBits := by
  refine ⟨fun a b s => ⟨decodeFunc_func (.clz a b), decodeFunc_func (.clo a b),
    exec_of_unchecked rfl rfl (countLeadingZeros_eq _), exec_of_unchecked rfl rfl (countLeadingZeros_eq _)⟩,
    fun v => ⟨fun h => h ▸ clzByWords_zero, fun h => ?_⟩⟩
  obtain ⟨hlt, hbit, habove⟩ := msb_spec h
  rw [clzByWords_of_ne_zero h, Nat.sub_sub_self (by omega)]
  exact ⟨Nat.sub_le _ _, hbit, habove⟩

/-- Settles O49: CTZ and CTO write the count by words, which is the lowest set position. -/
theorem ctzAndCtoCountTrailingBits : Obligations.CtzAndCtoCountTrailingBits := by
  refine ⟨fun a b s => ⟨decodeFunc_func (.ctz a b), decodeFunc_func (.cto a b),
    exec_of_unchecked rfl rfl (countTrailingZeros_eq _), exec_of_unchecked rfl rfl (countTrailingZeros_eq _)⟩,
    fun v => ⟨fun h => h ▸ ctzByWords_zero, fun h => ?_⟩⟩
  obtain ⟨hlt, hbit, hbelow⟩ := lsb_spec h
  rw [ctzByWords_of_ne_zero h]
  exact ⟨Nat.le_of_lt_succ hlt, hbit, hbelow⟩

/-- A nonzero value has the width that its leading zeros leave of 128 (R175). -/
theorem uVal_bounds_of_ne_zero {v : Word} (h : v ≠ 0) :
    2 ^ (128 - clzByWords v - 1) ≤ uVal v ∧ 0 < 128 - clzByWords v ∧ uVal v < 2 ^ (128 - clzByWords v) := by
  obtain ⟨hlt, -⟩ := msb_spec h
  obtain ⟨hlower, hupper⟩ := msb_bounds h
  have hwidth : 128 - clzByWords v = msb v + 1 := by
    rw [clzByWords_of_ne_zero h]
    omega
  rw [hwidth, Nat.add_sub_cancel]
  simp only [uVal]
  exact_mod_cast And.intro hlower (And.intro (Nat.succ_pos (msb v)) hupper)

/-- Settles O50: BITWIDTH writes 128 less the leading zeros, and the highest set bit bounds u(A). -/
theorem bitwidthHoldsTheValue : Obligations.BitwidthHoldsTheValue := by
  intro a b s x
  have hle := clzByWords_le x
  refine ⟨128 - clzByWords x, decodeFunc_func (.bitwidth a b), exec_of_unchecked rfl rfl (bitWidthOf_eq x),
    Nat.sub_le _ _, fun h => ?_, fun h => ?_, ?_, ?_⟩
  · rw [h, clzByWords_zero]
  · obtain ⟨hlower, hpos, -⟩ := uVal_bounds_of_ne_zero h
    exact ⟨hlower, hpos⟩
  · by_cases h : x = 0
    · rw [h]
      decide
    · obtain ⟨-, -, hupper⟩ := uVal_bounds_of_ne_zero h
      exact hupper
  · rw [countLeadingZeros_eq, uVal_count hle]
    omega

/-- Settles O51: FFS and FLS write `lsb` and `msb` of A, and every set bit lies between the two. -/
theorem ffsAndFlsFindSetBits : Obligations.FfsAndFlsFindSetBits := by
  intro a b s x
  refine ⟨_, _, decodeFunc_func (.ffs a b), decodeFunc_func (.fls a b),
    exec_of_unchecked rfl rfl (findFirstSet_eq x), exec_of_unchecked rfl rfl (findLastSet_eq x),
    fun h => ⟨if_pos h, if_pos h⟩, fun h => ?_⟩
  obtain ⟨-, hfirst, hbelow⟩ := lsb_spec h
  obtain ⟨hlt, hlast, habove⟩ := msb_spec h
  have hbetween : ∀ i : Nat, x.getLsbD i = true → lsb x ≤ i ∧ i ≤ msb x := fun i hi =>
    ⟨not_lt.1 fun hi' => by simp [hbelow i hi'] at hi, not_lt.1 fun hi' => by simp [habove i hi'] at hi⟩
  obtain ⟨-, hordered⟩ := hbetween _ hfirst
  rw [if_neg h, if_neg h]
  exact ⟨by omega, by omega, by omega, hfirst, hlast, fun i hi => by exact_mod_cast hbetween i hi⟩

/-- With a zero high word the set bits are those of the low word (R178). -/
theorem popcount_of_highWord_eq_zero {v : Word} (hhigh : highWord v = 0) :
    popcount v = popcount64 (lowWord v) := by
  have hnone : popcount64 0 = 0 := by decide
  rw [← popcount_by_words, hhigh, hnone, Nat.zero_add]

/-- Settles O52: the sums of the counts do not wrap, and with a zero high word every position is that of the
low word. -/
theorem counterLaws : Obligations.CounterLaws := by
  intro v
  have hsum := popcount_add_popcount_not v
  have hle := clzByWords_le v
  refine ⟨?_, ?_, fun hhigh h => ?_⟩
  · rw [zextCount, zextCount, uVal_count (by omega), uVal_count (by omega)]
    exact_mod_cast hsum
  · rw [countLeadingZeros_eq, bitWidthOf_eq, uVal_count hle, uVal_count (Nat.sub_le _ _)]
    omega
  · have hlow := lowWord_ne_zero h hhigh
    obtain ⟨hlt, -⟩ := (clz64_spec _).2 hlow
    have hmsb : (msb v : Int) = 63 - clz64 (lowWord v) := by
      rw [msb_of_highWord_eq_zero h hhigh]
      omega
    have hlsb := lsb_of_lowWord_ne_zero hlow
    refine ⟨popcount_of_highWord_eq_zero hhigh, ?_, ?_, ?_, ?_, ?_⟩
    · rw [countTrailingZeros, if_neg h, hlsb]
    · rw [bitWidthOf, if_neg h, hmsb]
      congr 1
      omega
    · rw [findFirstSet, if_neg h, hlsb]
    · rw [findLastSet, if_neg h, hmsb]
    · rw [countLeadingZeros, if_neg h, hmsb]
      congr 1
      omega

end Sys2Proof
end

section
/-! SUPPORT. The family of 45_checked.md: the range test in one closed form and in its two one-sided forms
(R190, R203), the checked divisions by the unchecked ones (R197, R198), when clamping changes a pattern (R199 to
R202), and the laws between checked, saturating and unchecked commands (R204). -/

namespace Sys2Proof

open Sys2Proof.Machine

/-! ### The range test -/

/-- RES0 is 0 outside the range, and the code tells the side (R190). -/
theorem checkRange_eq (lo hi n : Int) :
    checkRange lo hi n =
      (if n > hi ∨ n < lo then 0 else w128 n,
        if n > hi then .overflow else if n < lo then .underflow else .success) := by
  have h0 : w128 0 = 0 := by decide
  rcases checkRange_cases lo hi n with ⟨hover, h⟩ | ⟨hle, hunder, h⟩ | ⟨hge, hle, h⟩ <;> rw [h]
  · rw [if_pos (.inl hover), if_pos hover, h0]
  · rw [if_pos (.inr hunder), if_neg hle.not_gt, if_pos hunder, h0]
  · rw [if_neg (not_or.2 ⟨hle.not_gt, hge.not_gt⟩), if_neg hle.not_gt, if_neg hge.not_gt]

/-- A result that cannot fall below the range, with a pre-check for leaving it above (R203). -/
theorem checkRange_of_ge {lo hi n : Int} (hge : lo ≤ n) {p : Prop} [Decidable p] (hp : p ↔ n > hi) :
    checkRange lo hi n = (if p then 0 else w128 n, if n > hi then .overflow else .success) := by
  simp only [checkRange_eq, hge.not_gt, or_false, if_false, hp]

/-- A result that cannot rise above the range, with a pre-check for leaving it below (R203). -/
theorem checkRange_of_le {lo hi n : Int} (hle : n ≤ hi) {p : Prop} [Decidable p] (hp : p ↔ n < lo) :
    checkRange lo hi n = (if p then 0 else w128 n, if n < lo then .underflow else .success) := by
  simp only [checkRange_eq, gt_iff_lt, hle.not_gt, false_or, if_false, hp]

theorem checkRange_overflow_iff (lo hi n : Int) : (checkRange lo hi n).2 = .overflow ↔ hi < n := by
  rcases checkRange_cases lo hi n with ⟨hn, h⟩ | ⟨hn, -, h⟩ | ⟨-, hn, h⟩ <;> rw [h]
  · exact iff_of_true rfl hn
  · exact iff_of_false nofun hn.not_gt
  · exact iff_of_false nofun hn.not_gt

theorem checkRange_success_iff (lo hi n : Int) :
    (checkRange lo hi n).2 = .success ↔ lo ≤ n ∧ n ≤ hi := by
  rcases checkRange_cases lo hi n with ⟨hn, h⟩ | ⟨-, hn, h⟩ | ⟨hlo, hhi, h⟩ <;> rw [h]
  · exact iff_of_false nofun fun hin => hin.2.not_gt hn
  · exact iff_of_false nofun fun hin => hin.1.not_gt hn
  · exact iff_of_true rfl ⟨hlo, hhi⟩

/-- With SUCCESS the range test passes the exact result on (R190). -/
theorem checkRange_of_success {lo hi n : Int} (h : (checkRange lo hi n).2 = .success) :
    checkRange lo hi n = (w128 n, .success) := by
  obtain ⟨hlo, hhi⟩ := (checkRange_success_iff lo hi n).1 h
  rw [checkRange_eq, if_neg (not_or.2 ⟨hhi.not_gt, hlo.not_gt⟩), if_neg hhi.not_gt, if_neg hlo.not_gt]

/-! ### Checked sums, differences and products -/

/-- A command that completes with a range test, with the answer of the test given. -/
theorem exec_of_checkRange {i : Instr} {s : State} {lo hi n : Int} {r : Word} {st : Status}
    (hexec : exec i s = .next (s.writeRes0 (checkRange lo hi n).1 (checkRange lo hi n).2))
    (hcheck : checkRange lo hi n = (r, st)) :
    exec i s = .next { s with res0 := r, status := st, valid := true, pending := none } := by
  rw [hexec, hcheck]
  rfl

/-- Settles O53: an unsigned sum or product can leave the range above only, an unsigned difference below
only, and the pre-checks of R203 say when. -/
theorem unsignedCheckedCommands : Obligations.UnsignedCheckedCommands := by
  intro a b s x y
  have hsum : uVal x > UMAX - uVal y ↔ uVal x + uVal y > UMAX := by omega
  have hdiff : uVal x < uVal y ↔ uVal x - uVal y < 0 := by omega
  have hprod := unsigned_product_overflows_iff x y
  obtain ⟨hsum0, hdiffMax⟩ := uVal_sum_bounds x y
  exact
    ⟨⟨decodeFunc_func (.caddu a b),
        exec_of_checkRange (exec_eq (.caddu a b) s) (checkRange_of_ge hsum0 hsum), hsum⟩,
      ⟨decodeFunc_func (.csubu a b),
        exec_of_checkRange (exec_eq (.csubu a b) s) (checkRange_of_le hdiffMax hdiff), hdiff⟩,
      decodeFunc_func (.cmulu a b),
      exec_of_checkRange (exec_eq (.cmulu a b) s) (checkRange_of_ge (uVal_product_nonneg x y) hprod), hprod⟩

/-- Settles O54: the three commands are range tests of their exact results, and a pattern in the signed
range reads back. -/
theorem signedCheckedCommands : Obligations.SignedCheckedCommands := by
  intro a b s x y report
  exact ⟨decodeFunc_func (.cadds a b), decodeFunc_func (.csubs a b), decodeFunc_func (.cmuls a b),
    exec_of_checkRange (exec_eq (.cadds a b) s) (checkRange_eq _ _ _),
    exec_of_checkRange (exec_eq (.csubs a b) s) (checkRange_eq _ _ _),
    exec_of_checkRange (exec_eq (.cmuls a b) s) (checkRange_eq _ _ _),
    fun _ => sVal_w128_of_range⟩

/-! ### Checked divisions -/

theorem checkedDivUnsigned_of_zero (x : Word) {y : Word} (h : uVal y = 0) :
    checkedDivUnsigned x y = ((0, 0), .invalidInput) := if_pos h

/-- With a divisor the answer is DIVU's (R204). -/
theorem checkedDivUnsigned_of_ne_zero (x : Word) {y : Word} (h : uVal y ≠ 0) :
    checkedDivUnsigned x y = (divUnsigned x y, .success) := by
  rw [checkedDivUnsigned, divUnsigned, if_neg h, if_neg h]

theorem checkedDivSigned_of_zero (x : Word) {y : Word} (h : uVal y = 0) :
    checkedDivSigned x y = ((0, 0), .invalidInput) := if_pos h

theorem checkedDivSigned_overflow {x y : Word} (hx : sVal x = SMIN) (hy : sVal y = -1) :
    checkedDivSigned x y = ((0, 0), .overflow) := by
  have hne : uVal y ≠ 0 := by
    rw [← sVal_emod, hy]
    decide
  rw [checkedDivSigned, if_neg hne, if_pos ⟨hx, hy⟩]
  rfl

/-- With a divisor and a quotient that fits the answer is DIVS's (R204). -/
theorem checkedDivSigned_of_fits {x y : Word} (h : uVal y ≠ 0) (hfit : ¬ (sVal x = SMIN ∧ sVal y = -1)) :
    checkedDivSigned x y = (divSigned x y, .success) := by
  rw [checkedDivSigned, if_neg h, if_neg hfit, divSigned_eq x y h]

/-- A command that completes with a checked division, with the answer of the division given. -/
theorem exec_of_checkedDiv {i : Instr} {s : State} {d : (Word × Word) × Status} {q r : Word} {st : Status}
    (hexec : exec i s = .next (s.writeBoth d.1.1 d.1.2 d.2)) (hdiv : d = ((q, r), st)) :
    exec i s = .next (s.writeBoth q r st) := by
  rw [hexec, hdiv]

theorem exec_cdivu {a b : Source} {s : State} {q r : Word} {st : Status}
    (h : checkedDivUnsigned (s.operandA a) (s.operandB b) = ((q, r), st)) :
    exec (.cdivu a b) s = .next (s.writeBoth q r st) :=
  exec_of_checkedDiv (exec_eq (.cdivu a b) s) h

theorem exec_cdivs {a b : Source} {s : State} {q r : Word} {st : Status}
    (h : checkedDivSigned (s.operandA a) (s.operandB b) = ((q, r), st)) :
    exec (.cdivs a b) s = .next (s.writeBoth q r st) :=
  exec_of_checkedDiv (exec_eq (.cdivs a b) s) h

/-- Settles O55: each case of the divisor by the answer of the checked division; where it reports SUCCESS
the unchecked division completes the same way. -/
theorem checkedDivisions : Obligations.CheckedDivisions := by
  intro a b s x y
  refine ⟨decodeFunc_func (.cdivu a b), decodeFunc_func (.cdivs a b), fun hzero => ?_, fun hne => ?_,
    fun hx hy => exec_cdivs (checkedDivSigned_overflow hx hy), fun hne hfit => ?_⟩
  · exact ⟨exec_cdivu (checkedDivUnsigned_of_zero x hzero), exec_cdivs (checkedDivSigned_of_zero x hzero)⟩
  · have hdiv := checkedDivUnsigned_of_ne_zero x hne
    exact ⟨exec_cdivu (by rw [hdiv, divUnsigned, if_neg hne]),
      (exec_cdivu hdiv).trans (exec_eq (.divu a b) s).symm⟩
  · have hdiv := checkedDivSigned_of_fits hne hfit
    have hquot := divSigned_eq x y hne
    refine ⟨exec_cdivs (by rw [hdiv, hquot]), (exec_cdivs hdiv).trans (exec_eq (.divs a b) s).symm, ?_⟩
    rw [tdiv_eq_Int_tdiv]
    exact tdiv_bounds x y hfit

/-! ### Clamping -/

theorem clamp_mem_range (n : Int) {lo hi : Int} (h : lo ≤ hi) : lo ≤ clamp n lo hi ∧ clamp n lo hi ≤ hi :=
  ⟨le_min (le_max_right n lo) h, min_le_right _ hi⟩

theorem clamp_of_ge {n lo hi : Int} (h : lo ≤ n) : clamp n lo hi = min n hi := by
  rw [clamp, max_eq_left h]

theorem clamp_of_le {n lo hi : Int} (hrange : lo ≤ hi) (h : n ≤ hi) : clamp n lo hi = max n lo :=
  min_eq_left (max_le h hrange)

theorem UMAX_nonneg : 0 ≤ UMAX := by decide

theorem SMIN_le_SMAX : SMIN ≤ SMAX := by decide

theorem uVal_w128_clamp (n : Int) : uVal (w128 (clamp n 0 UMAX)) = clamp n 0 UMAX := by
  obtain ⟨hlo, hhi⟩ := clamp_mem_range n UMAX_nonneg
  exact uVal_w128_of_range hlo hhi

theorem sVal_w128_clamp (n : Int) : sVal (w128 (clamp n SMIN SMAX)) = clamp n SMIN SMAX := by
  obtain ⟨hlo, hhi⟩ := clamp_mem_range n SMIN_le_SMAX
  exact sVal_w128_of_range hlo hhi

/-- The sum of two unsigned values clamps at the top only (R199). -/
theorem clamp_uVal_add (x y : Word) : clamp (uVal x + uVal y) 0 UMAX = min (uVal x + uVal y) UMAX :=
  clamp_of_ge (uVal_sum_bounds x y).1

/-- The difference of two unsigned values clamps at the bottom only (R201). -/
theorem clamp_uVal_sub (x y : Word) : clamp (uVal x - uVal y) 0 UMAX = max (uVal x - uVal y) 0 :=
  clamp_of_le UMAX_nonneg (uVal_sum_bounds x y).2

/-- Settles O56: each command writes the pattern of a clamped result, which lies in the range and reads
back. -/
theorem saturatingCommandsClamp : Obligations.SaturatingCommandsClamp := by
  intro a b s x y done
  have hsum := clamp_uVal_add x y
  have hdiff := clamp_uVal_sub x y
  refine ⟨w128 (clamp (uVal x + uVal y) 0 UMAX), w128 (clamp (sVal x + sVal y) SMIN SMAX),
    w128 (clamp (uVal x - uVal y) 0 UMAX), w128 (clamp (sVal x - sVal y) SMIN SMAX),
    decodeFunc_func (.sataddu a b), decodeFunc_func (.satadds a b), decodeFunc_func (.satsubu a b),
    decodeFunc_func (.satsubs a b), exec_of_unchecked rfl rfl (congrArg w128 hsum.symm),
    exec_of_unchecked rfl rfl rfl, exec_of_unchecked rfl rfl (congrArg w128 hdiff.symm),
    exec_of_unchecked rfl rfl rfl, (uVal_w128_clamp _).trans hsum, sVal_w128_clamp _,
    (uVal_w128_clamp _).trans hdiff, sVal_w128_clamp _⟩

/-! ### Checked and unchecked commands -/

/-- With SUCCESS a range test gives the results of a command that writes the wrapped result. -/
theorem results_of_checkRange_success {lo hi n : Int} {r : Word} (hr : r = w128 n) (keep : Word)
    (h : (checkRange lo hi n).2 = .success) :
    (⟨(checkRange lo hi n).1, keep, (checkRange lo hi n).2⟩ : Results) = ⟨r, keep, .success⟩ := by
  rw [checkRange_of_success h, hr]

theorem checkedDivUnsigned_of_success {x y : Word} (h : (checkedDivUnsigned x y).2 = .success) :
    checkedDivUnsigned x y = (divUnsigned x y, .success) := by
  rcases checkedDivUnsigned_cases x y with ⟨-, hdiv⟩ | ⟨hne, -⟩
  · exact absurd h (hdiv ▸ nofun)
  · exact checkedDivUnsigned_of_ne_zero x hne

theorem checkedDivSigned_of_success {x y : Word} (h : (checkedDivSigned x y).2 = .success) :
    checkedDivSigned x y = (divSigned x y, .success) := by
  rcases checkedDivSigned_cases x y with ⟨-, hdiv⟩ | ⟨-, -, hdiv⟩ | ⟨hne, hfit, -⟩
  · exact absurd h (hdiv ▸ nofun)
  · exact absurd h (hdiv ▸ nofun)
  · exact checkedDivSigned_of_fits hne hfit

/-- The checked commands with their unchecked counterparts (R204). -/
def checkedPairs (a b : Source) : List (Instr × Instr) :=
  [(.caddu a b, .add a b), (.cadds a b, .add a b), (.csubu a b, .sub a b), (.csubs a b, .sub a b),
    (.cmulu a b, .mul a b), (.cmuls a b, .mul a b), (.cdivu a b, .divu a b), (.cdivs a b, .divs a b)]

/-- A checked command with SUCCESS has the results of its unchecked counterpart: sum, difference and product
wrap to one pattern in either reading (R204). -/
theorem results_eq_of_mem_checkedPairs {a b : Source} {c u : Instr} (hmem : (c, u) ∈ checkedPairs a b)
    {x y keep : Word} (h : (results c x y keep).st = .success) :
    results c x y keep = results u x y keep := by
  simp only [checkedPairs, List.mem_cons, List.not_mem_nil, Prod.mk.injEq, or_false] at hmem
  rcases hmem with ⟨rfl, rfl⟩ | ⟨rfl, rfl⟩ | ⟨rfl, rfl⟩ | ⟨rfl, rfl⟩ | ⟨rfl, rfl⟩ | ⟨rfl, rfl⟩ |
    ⟨rfl, rfl⟩ | ⟨rfl, rfl⟩
  · exact results_of_checkRange_success (addWords_eq x y) keep h
  · exact results_of_checkRange_success (addWords_eq_signed x y) keep h
  · exact results_of_checkRange_success (subWords_eq x y) keep h
  · exact results_of_checkRange_success (subWords_eq_signed x y) keep h
  · exact results_of_checkRange_success rfl keep h
  · exact results_of_checkRange_success (w128_mul_signed x y) keep h
  · simp only [results, checkedDivUnsigned_of_success h]
  · simp only [results, checkedDivSigned_of_success h]

/-! ### Saturating and checked commands -/

/-- Outside the range, but within 2^128 of it, clamping changes the pattern. -/
theorem w128_clamp_eq_iff {n lo hi : Int} (hrange : lo ≤ hi) (hlo : lo - 2 ^ 128 < n)
    (hhi : n < hi + 2 ^ 128) : w128 (clamp n lo hi) = w128 n ↔ lo ≤ n ∧ n ≤ hi := by
  rw [w128_eq_iff, clamp]
  omega

/-- Clamping keeps the wrapped result `r` exactly when the range test reports SUCCESS (R204). -/
theorem w128_clamp_eq_iff_success {n lo hi : Int} {r : Word} (hr : r = w128 n) (hrange : lo ≤ hi)
    (hlo : lo - 2 ^ 128 < n) (hhi : n < hi + 2 ^ 128) :
    w128 (clamp n lo hi) = r ↔ (checkRange lo hi n).2 = .success := by
  rw [hr, w128_clamp_eq_iff hrange hlo hhi, checkRange_success_iff]

theorem natAbs_sVal_lt (v : Word) : (sVal v).natAbs < 2 ^ 128 := by
  have h := sVal_bounds v
  simp only [SMIN, SMAX] at h
  omega

/-- The saturating commands with the checked and unchecked ones of the same exact result (R204). -/
def saturatingTriples (a b : Source) : List (Instr × Instr × Instr) :=
  [(.sataddu a b, .caddu a b, .add a b), (.satadds a b, .cadds a b, .add a b),
    (.satsubu a b, .csubu a b, .sub a b), (.satsubs a b, .csubs a b, .sub a b)]

/-- Sums and differences of two values stay within 2^128 of their range, so clamping keeps the wrapped
result exactly when the checked command reports SUCCESS (R204). -/
theorem results_eq_iff_of_mem_saturatingTriples {a b : Source} {z c u : Instr}
    (hmem : (z, c, u) ∈ saturatingTriples a b) (x y keep : Word) :
    (results z x y keep).r0 = (results u x y keep).r0 ↔ (results c x y keep).st = .success := by
  have hxu := uVal_nonneg x
  have hxmax := uVal_le_UMAX x
  have hyu := uVal_nonneg y
  have hylt := uVal_lt y
  have hxs := sVal_bounds x
  have hys := natAbs_sVal_lt y
  simp only [saturatingTriples, List.mem_cons, List.not_mem_nil, Prod.mk.injEq, or_false] at hmem
  rcases hmem with ⟨rfl, rfl, rfl⟩ | ⟨rfl, rfl, rfl⟩ | ⟨rfl, rfl, rfl⟩ | ⟨rfl, rfl, rfl⟩
  · simp only [results, ← clamp_uVal_add]
    exact w128_clamp_eq_iff_success (addWords_eq x y) UMAX_nonneg (by omega) (by omega)
  · exact w128_clamp_eq_iff_success (addWords_eq_signed x y) SMIN_le_SMAX (by omega) (by omega)
  · simp only [results, ← clamp_uVal_sub]
    exact w128_clamp_eq_iff_success (subWords_eq x y) UMAX_nonneg (by omega) (by omega)
  · exact w128_clamp_eq_iff_success (subWords_eq_signed x y) SMIN_le_SMAX (by omega) (by omega)

/-! ### Laws of the detector -/

/-- The exact sum is in the signed range unless the operands' signs agree and the wrapped sum's differs
(R204). -/
theorem signed_sum_in_range_iff (x y : Word) :
    (SMIN ≤ sVal x + sVal y ∧ sVal x + sVal y ≤ SMAX) ↔
      ¬ (x.getLsbD 127 = y.getLsbD 127 ∧ (addWords x y).getLsbD 127 ≠ x.getLsbD 127) := by
  have hx := sVal_bounds x
  have hy := sVal_bounds y
  simp only [SMIN, SMAX] at *
  simp only [sign_bit, ne_eq, decide_eq_decide, addWords_eq_signed, sVal_eq (w128 _), uVal_w128]
  split <;> omega

/-- A completed command of the fields `a` and `b` has left its results in RES0, RES1 and STATUS. -/
theorem results_of_exec {i : Instr} {a b : Source} (hfields : i.srcA = a ∧ i.srcB = b) {s t : State}
    (h : exec i s = .next t) :
    results i (s.operandA a) (s.operandB b) s.res1 = ⟨t.res0, t.res1, t.status⟩ := by
  obtain ⟨rfl, rfl⟩ := hfields
  rw [exec_eq] at h
  cases h
  rfl

theorem fields_of_mem_checkedPairs {a b : Source} {c u : Instr} (h : (c, u) ∈ checkedPairs a b) :
    (c.srcA = a ∧ c.srcB = b) ∧ u.srcA = a ∧ u.srcB = b := by
  have hall : ∀ p ∈ checkedPairs a b,
      (p.1.srcA = a ∧ p.1.srcB = b) ∧ p.2.srcA = a ∧ p.2.srcB = b := by
    simp [checkedPairs, Instr.srcA, Instr.srcB]
  exact hall _ h

theorem fields_of_mem_saturatingTriples {a b : Source} {z c u : Instr}
    (h : (z, c, u) ∈ saturatingTriples a b) :
    (z.srcA = a ∧ z.srcB = b) ∧ (c.srcA = a ∧ c.srcB = b) ∧ u.srcA = a ∧ u.srcB = b := by
  have hall : ∀ p ∈ saturatingTriples a b, (p.1.srcA = a ∧ p.1.srcB = b) ∧
      (p.2.1.srcA = a ∧ p.2.1.srcB = b) ∧ p.2.2.srcA = a ∧ p.2.2.srcB = b := by
    simp [saturatingTriples, Instr.srcA, Instr.srcB]
  exact hall _ h

/-- Settles O57: the laws of the results, carried to the states that the commands leave. -/
theorem detectorLaws : Obligations.DetectorLaws := by
  intro a b s
  refine ⟨fun c u hmem tc tu hc hu hst => ?_, fun t h => ?_, fun t tu h hu => ?_,
    fun z c u hmem tz tc tu hz hc hu => ?_⟩
  · -- SUCCESS is the unchecked result
    obtain ⟨hcf, huf⟩ := fields_of_mem_checkedPairs hmem
    have hlaw := results_eq_of_mem_checkedPairs hmem (x := s.operandA a) (y := s.operandB b) (keep := s.res1)
    rw [results_of_exec hcf hc, results_of_exec huf hu] at hlaw
    have heq := hlaw hst
    exact ⟨congrArg Results.r0 heq, congrArg Results.r1 heq⟩
  · -- CADDU: the carry out of bit 127
    cases h
    exact checkRange_overflow_iff 0 UMAX _
  · -- CADDS: the sign bits
    cases h
    cases hu
    exact ((checkRange_success_iff _ _ _).trans (signed_sum_in_range_iff _ _)).not_left
  · -- clamping changes nothing
    obtain ⟨hzf, hcf, huf⟩ := fields_of_mem_saturatingTriples hmem
    have hlaw := results_eq_iff_of_mem_saturatingTriples hmem (s.operandA a) (s.operandB b) s.res1
    rwa [results_of_exec hzf hz, results_of_exec hcf hc, results_of_exec huf hu] at hlaw

end Sys2Proof
end

section
/-! SUPPORT. The family of 60_exceptions.md: no edge traps or refuses (R227, R263), and a command that reports an
error writes 0 to every result register it writes (R190, R221). -/

namespace Sys2Proof

open Sys2Proof.Machine

/-! ### No traps -/

/-- A completion, of a reserved FUNC too, answers a next state (R90, R227). -/
theorem complete_total (p : Pending) (s : State) : ∃ t, complete p s = .next t := by
  obtain ⟨r0, r1, st, hc, -⟩ := complete_cases p s
  exact ⟨_, hc⟩

/-- Settles O7: four of the six things an edge can do name their next state, and the other two are
completions. -/
theorem stepAlwaysHasNextState : Obligations.StepAlwaysHasNextState := by
  intro s
  rcases step_cases s with ⟨-, hs⟩ | ⟨-, p, -, -, hs⟩ | ⟨-, p, -, -, hs⟩ | ⟨-, -, -, hs⟩ |
    ⟨-, -, -, -, hs⟩ | ⟨-, -, -, -, hs⟩ <;> rw [hs]
  · -- reset
    exact ⟨_, rfl⟩
  · -- the completion of the command in progress
    exact complete_total _ _
  · -- an edge before its completion
    exact ⟨_, rfl⟩
  · -- idle
    exact ⟨_, rfl⟩
  · -- an acceptance with its completion
    exact complete_total _ _
  · -- an acceptance
    exact ⟨_, rfl⟩

/-! ### Values recorded with an error -/

/-- Outside the range the value is 0 (R190). -/
theorem checkRange_of_error {lo hi n : Int} (h : (checkRange lo hi n).2 ≠ .success) :
    (checkRange lo hi n).1 = 0 := by
  rcases checkRange_cases lo hi n with ⟨-, hc⟩ | ⟨-, -, hc⟩ | ⟨-, -, hc⟩ <;> rw [hc] at h ⊢
  · rfl
  · rfl
  · exact absurd rfl h

/-- The only error of CDIVU is a zero divisor (R197). -/
theorem checkedDivUnsigned_of_error {x y : Word} (h : (checkedDivUnsigned x y).2 ≠ .success) :
    (checkedDivUnsigned x y).1 = (0, 0) := by
  by_cases hzero : uVal y = 0
  · rw [checkedDivUnsigned_of_zero x hzero]
  · exact absurd (congrArg Prod.snd (checkedDivUnsigned_of_ne_zero x hzero)) h

/-- The errors of CDIVS are a zero divisor and SMIN / -1 (R198). -/
theorem checkedDivSigned_of_error {x y : Word} (h : (checkedDivSigned x y).2 ≠ .success) :
    (checkedDivSigned x y).1 = (0, 0) := by
  by_cases hzero : uVal y = 0
  · rw [checkedDivSigned_of_zero x hzero]
  · by_cases hover : sVal x = SMIN ∧ sVal y = -1
    · rw [checkedDivSigned_overflow hover.1 hover.2]
    · exact absurd (congrArg Prod.snd (checkedDivSigned_of_fits hzero hover)) h

/-- Only a checked command reports an error (R222). -/
theorem checked_of_error {i : Instr} {x y keep : Word} (h : (results i x y keep).st ≠ .success) :
    i.checked = true :=
  Bool.of_not_eq_false fun hunchecked => h (results_st_of_unchecked hunchecked x y keep)

/-- Of the checked commands, CDIVU and CDIVS write RES1 (R32). -/
theorem writesRes1_iff_func_of_checked {i : Instr} (h : i.checked = true) :
    i.writesRes1 = true ↔ i.func ∈ [0x26, 0x27] := by
  cases i <;> cases h <;> simp [Instr.writesRes1, Instr.func]

/-- A command that reports an error writes 0 to each result register it writes (R190, R221). -/
theorem results_of_error {i : Instr} {x y keep : Word} (h : (results i x y keep).st ≠ .success) :
    (results i x y keep).r0 = 0 ∧ (i.writesRes1 = true → (results i x y keep).r1 = 0) := by
  have hchecked := checked_of_error h
  cases i <;> cases hchecked
  case cdivu =>
    have hzeros := checkedDivUnsigned_of_error h
    exact ⟨congrArg Prod.fst hzeros, fun _ => congrArg Prod.snd hzeros⟩
  case cdivs =>
    have hzeros := checkedDivSigned_of_error h
    exact ⟨congrArg Prod.fst hzeros, fun _ => congrArg Prod.snd hzeros⟩
  all_goals exact ⟨checkRange_of_error h, nofun⟩

/-- Settles O22: the registers a failing command writes are RES0 and, for the divisions alone, RES1. -/
theorem errorsWriteZeros : Obligations.ErrorsWriteZeros := by
  intro i s t hexec herror
  rw [exec_eq] at hexec
  cases hexec
  obtain ⟨hr0, hr1⟩ := results_of_error herror
  have hwrites := writesRes1_iff_func_of_checked (checked_of_error herror)
  exact ⟨hr0, fun hdiv => hr1 (hwrites.2 hdiv),
    fun hother => results_keep (Bool.eq_false_iff.2 (mt hwrites.1 hother)) _ _ _⟩

end Sys2Proof
end

section
/-! SUPPORT. The family of 70_reset_and_hazards.md: what an edge does, by what it finds (a reset, a command in
progress, a command presented to an idle core); from this and `step_cases` what each edge does and keeps; and
what the edges from an acceptance to its completion leave (R250 to R256, R262, R263). -/

namespace Sys2Proof

open Sys2Proof.Machine

/-! ### One edge, by what it finds -/

/-- R250. -/
theorem step_of_reset {s : State} (hr : s.pins.rst = true) :
    step s = .next s.advance.resetRegisters := if_pos hr

/-- R253: the last edge of a command in progress. -/
theorem step_of_due {s : State} {p : Pending} (hr : s.pins.rst = false) (hp : s.pending = some p)
    (hl : p.left ≤ 1) : step s = complete p s.advance := by
  simp [step, clockEdge, hr, hp, hl]

/-- R253: an earlier edge of a command in progress. -/
theorem step_of_waiting {s : State} {p : Pending} (hr : s.pins.rst = false) (hp : s.pending = some p)
    (hl : 1 < p.left) : step s = .next (s.advance.tick p) := by
  simp [step, clockEdge, hr, hp, hl]

theorem accept_of_zero {s : State} {c : Command} (h : (s.capture c).left = 0) :
    accept c s = complete (s.capture c) s := if_pos h

theorem accept_of_pos {s : State} {c : Command} (h : 0 < (s.capture c).left) :
    accept c s = .next (s.startPending (s.capture c)) := if_neg h.ne'

/-- A completion that answers `t` has written RES0, RES1 and STATUS of `s`, and nothing else (R89). -/
theorem exists_finish_of_complete {p : Pending} {s t : State} (h : complete p s = .next t) :
    ∃ r0 r1 st, t = s.finish r0 r1 st := by
  obtain ⟨r0, r1, st, hc, -⟩ := complete_cases p s
  cases hc.symm.trans h
  exact ⟨r0, r1, st, rfl⟩

/-- The latency that acceptance records is that of the decoded command on its own operands (R252, R262). -/
theorem capture_left_of_decode {c : Command} {i : Instr} (h : decode c = .ok i) (s : State) :
    (s.capture c).left = latency s.timing i.func (s.operandA i.srcA) (s.operandB i.srcB) := by
  obtain ⟨hfunc, ha, hb⟩ := decodeFunc_ok h
  rw [hfunc, ha, hb]
  rfl

/-! ### From an acceptance to its completion -/

/-- Settles O14: what lands is the completion of the captured command, which is the command's meaning on the
registers it was accepted over. -/
theorem commandCompletesAfterLatency : Obligations.CommandCompletesAfterLatency := by
  intro s i hvalid hidle hdecode lat hreset
  have hlat : (s.capture s.pins.command).left = lat := capture_left_of_decode hdecode s
  rw [← hlat] at hreset ⊢
  exact (runEdges_accept s hvalid hidle hreset).trans (complete_capture hdecode _ rfl rfl)

theorem NoReset.mono {m n : Nat} {s : State} (hmn : m ≤ n) (h : NoReset n s) : NoReset m s :=
  fun p hp => h p (List.take_subset_take_left _ hmn hp)

/-- Edges that end in a completion leave the core idle with its result on the port. -/
theorem idle_and_valid_of_runEdges {k : Nat} {s u : State} {p : Pending}
    (h : runEdges k s = complete p u) : ∃ t, runEdges k s = .next t ∧ t.busy = false ∧ t.valid = true := by
  obtain ⟨r0, r1, st, hc, -⟩ := complete_cases p u
  exact ⟨_, h.trans hc, rfl, rfl⟩

/-- Settles O17: the edges a command has to go, by the invariant or by its acceptance, are at most MAX_LAT,
and the last of them is its completion. -/
theorem pendingCommandTerminates : Obligations.PendingCommandTerminates := by
  refine ⟨fun s hinv hbusy hreset => ?_, fun s hidle hvalid hreset => ?_⟩
  · obtain ⟨p, hp⟩ := Option.isSome_iff_exists.1 hbusy
    obtain ⟨hpos, hmax⟩ := hinv.pendingIsTimed p hp
    have hleft : p.left - 1 + 1 = p.left := Nat.sub_add_cancel hpos
    have hrun := runEdges_pending (p.left - 1) s p hp hleft.symm (hreset.mono (hleft ▸ hmax))
    rw [hleft] at hrun
    exact ⟨p.left, hmax, idle_and_valid_of_runEdges hrun⟩
  · have hmax := s.capture_left_le s.pins.command
    have hrun := runEdges_accept s hvalid (s.busy_eq_false_iff.1 hidle)
      (hreset.mono (Nat.succ_le_succ hmax))
    exact ⟨_, hmax, idle_and_valid_of_runEdges hrun⟩

/-! ### What an edge reads and keeps -/

/-- An edge that accepts nothing reads `rst` alone of the port values at it (R235, R250, R253, R255). -/
theorem step_congr_of_not_accepts {x y : State} (hrst : x.pins.rst = y.pins.rst)
    (hadvance : x.advance = y.advance) (hx : x.accepts = false) (hy : y.accepts = false) :
    step x = step y := by
  have hpending : x.pending = y.pending := (congrArg State.pending hadvance :)
  cases hr : y.pins.rst with
  | true => rw [step_of_reset (hrst.trans hr), step_of_reset hr, hadvance]
  | false =>
    have hr' : x.pins.rst = false := hrst.trans hr
    cases hp : y.pending with
    | some p =>
      have hp' : x.pending = some p := hpending.trans hp
      rcases Nat.lt_or_ge 1 p.left with hl | hl
      · rw [step_of_waiting hr' hp' hl, step_of_waiting hr hp hl, hadvance]
      · rw [step_of_due hr' hp' hl, step_of_due hr hp hl, hadvance]
    | none =>
      have hidle : y.busy = false := y.busy_eq_false_iff.2 hp
      have hidle' : x.busy = false := x.busy_eq_false_iff.2 (hpending.trans hp)
      rw [step_of_quiet hr' hidle' hx, step_of_quiet hr hidle hy, hadvance]

theorem not_accepts_of_busy {s : State} (h : s.busy = true) : s.accepts = false := by
  simp [State.accepts, State.inReady, h]

theorem not_accepts_of_not_inValid {s : State} (h : s.pins.inValid = false) : s.accepts = false := by
  simp [State.accepts, h]

/-- Settles O16: a core that is busy or presented nothing accepts nothing, and the command in progress moves
on or completes. -/
theorem commandPortMattersOnlyAtAcceptance : Obligations.CommandPortMattersOnlyAtAcceptance := by
  refine ⟨fun s p q rest hrst hquiet => ?_, fun s t p hp hr hstep => ?_, fun s hidle hvalid hr => ?_⟩
  · rcases hquiet with hbusy | ⟨hp, hq⟩
    · exact step_congr_of_not_accepts hrst rfl (not_accepts_of_busy hbusy) (not_accepts_of_busy hbusy)
    · exact step_congr_of_not_accepts hrst rfl (not_accepts_of_not_inValid hp)
        (not_accepts_of_not_inValid hq)
  · rcases Nat.lt_or_ge 1 p.left with hl | hl
    · rw [step_of_waiting hr hp hl] at hstep
      cases hstep
      exact .inr rfl
    · rw [step_of_due hr hp hl] at hstep
      obtain ⟨r0, r1, st, rfl⟩ := exists_finish_of_complete hstep
      exact .inl rfl
  · exact step_of_quiet hr hidle (not_accepts_of_not_inValid hvalid)

/-- No edge changes the OPEN timing parameters (R262). -/
theorem step_timing {s t : State} (hstep : step s = .next t) : t.timing = s.timing := by
  rcases step_cases s with ⟨-, hs⟩ | ⟨-, p, -, -, hs⟩ | ⟨-, p, -, -, hs⟩ | ⟨-, -, -, hs⟩ |
    ⟨-, -, -, -, hs⟩ | ⟨-, -, -, -, hs⟩ <;> rw [hs] at hstep
  · -- reset
    cases hstep; rfl
  · -- the completion of the command in progress
    obtain ⟨r0, r1, st, rfl⟩ := exists_finish_of_complete hstep; rfl
  · -- an edge before its completion
    cases hstep; rfl
  · -- idle
    cases hstep; rfl
  · -- an acceptance with its completion
    obtain ⟨r0, r1, st, rfl⟩ := exists_finish_of_complete hstep; rfl
  · -- an acceptance
    cases hstep; rfl

/-- Settles O18: the clauses' cycles are clamped, and LAT reads nothing but the timing parameters. -/
theorem latencyIsAFixedBoundedFunction : Obligations.LatencyIsAFixedBoundedFunction :=
  ⟨latency_le, fun s t f a b hstep => by rw [step_timing hstep]⟩

/-- Settles O19: of the edges after which a command is in progress, one before its completion keeps VALID,
which the invariant says is 0, and an acceptance writes it. -/
theorem resultPortHoldsUntilCompletion : Obligations.ResultPortHoldsUntilCompletion := by
  intro s t hinv hr hstep hbusy
  rcases step_cases s with ⟨hreset, -⟩ | ⟨-, p, -, -, hs⟩ | ⟨-, p, hp, -, hs⟩ | ⟨-, hidle, -, hs⟩ |
    ⟨-, -, -, -, hs⟩ | ⟨-, -, -, -, hs⟩
  · -- reset
    exact absurd (hreset.symm.trans hr) nofun
  · -- the completion of the command in progress
    obtain ⟨r0, r1, st, rfl⟩ := exists_finish_of_complete (hs.symm.trans hstep)
    cases hbusy
  · -- an edge before its completion
    cases hs.symm.trans hstep
    exact ⟨rfl, rfl, rfl, hinv.busyHidesResult (State.busy_of_pending hp)⟩
  · -- idle
    cases hs.symm.trans hstep
    exact absurd (hbusy.symm.trans (s.busy_eq_false_iff.2 hidle)) nofun
  · -- an acceptance with its completion
    obtain ⟨r0, r1, st, rfl⟩ := exists_finish_of_complete (hs.symm.trans hstep)
    cases hbusy
  · -- an acceptance
    cases hs.symm.trans hstep
    exact ⟨rfl, rfl, rfl, rfl⟩

/-! ### Reset and acceptance edges -/

/-- Settles O2: `in_ready` is 0 under `rst`, and the edge resets the registers. -/
theorem resetEdgeOverridesEverything : Obligations.ResetEdgeOverridesEverything :=
  fun s hr => ⟨by simp [State.inReady, hr], step_of_reset hr⟩

/-- Settles O12: an acceptance at latency 0 is the completion of the captured command at the same edge. -/
theorem stepRunsPresentedCommand : Obligations.StepRunsPresentedCommand := by
  intro s i hr hvalid hidle hdecode hlat
  have hzero : (s.advance.capture s.pins.command).left = 0 :=
    (capture_left_of_decode hdecode s.advance).trans hlat
  calc step s = accept s.pins.command s.advance := step_of_accepts ((accepts_iff s).2 ⟨hr, hidle, hvalid⟩)
    _ = complete (s.advance.capture s.pins.command) s.advance := accept_of_zero hzero
    _ = exec i s.advance := complete_capture hdecode s.advance rfl rfl

/-- Settles O13: what is recorded is the capture of the command on the port. -/
theorem acceptanceRecordsCommand : Obligations.AcceptanceRecordsCommand := by
  intro s hr hvalid hidle a b lat hpos
  have haccepts : s.accepts = true := (accepts_iff s).2 ⟨hr, s.busy_eq_false_iff.1 hidle, hvalid⟩
  exact ⟨s.inReady_iff.2 ⟨hidle, hr⟩, (step_of_accepts haccepts).trans (accept_of_pos hpos)⟩

end Sys2Proof
end
